-- ==== Sys2Proof/Word.lean ====
section
/-!
DEFINITION. The word types of the SEG7 display block (spec/00_scope.md R8, spec/30_encoding.md R48).
Bit 0 is the least significant bit of every value, and every value is unsigned (R8).
-/

namespace Sys2Proof

/-- `u8`: a segment pattern or a digit-enable pattern, active low (R9). -/
abbrev Byte := BitVec 8

/-- The 4-bit digit port of the encoder, `DIGIT_WIDTH = 4` (R7, R61). -/
abbrev Digit := BitVec 4

/-- The 24-bit operation word; a number, with no byte order (R48). -/
abbrev OpWord := BitVec 24

end Sys2Proof
end

