-- ==== Sys2Proof/Syntax.lean ====
section
/-!
DEFINITION. The seven operations of the block, one constructor per row of spec/opcode_table.json
(spec/30_encoding.md R50, R59). Operands carry their range in their type: every term has a word.
The timer's fire step is no operation and has no constructor (R50, R88).
-/

namespace Sys2Proof

/-- An operation of the block, as the host issues it (R50). -/
inductive Instr where
  /-- `encode d`: map a digit to its segment pattern (R63). -/
  | encode (d : Digit)
  /-- `withColon p`: turn the colon indicator on (R64). -/
  | withColon (p : Byte)
  /-- `withDecimal p`: turn the decimal-point indicator on (R65). -/
  | withDecimal (p : Byte)
  /-- `blank`: the all-segments-off pattern (R66). -/
  | blank
  /-- `shiftOut s, e`: send a segment pattern and a digit-enable mask (R73). -/
  | shiftOut (s e : Byte)
  /-- `startRefresh`: start the refresh timer (R87). -/
  | startRefresh
  /-- `takeRefresh`: read and clear the refresh flag (R90). -/
  | takeRefresh
deriving DecidableEq, Repr

end Sys2Proof
end

