-- ==== Sys2Proof/Decode.lean ====
section
/-!
DEFINITION. The operation word (spec/30_encoding.md R48 to R58): its fields, the decoder, total on all 2^24
words, and after it the encoder. An illegal word is rejected by name.
-/

namespace Sys2Proof

/-! ### Fields (R48, R49) -/

/-- `OP = w[23:16]`. -/
def opField (w : OpWord) : Byte := w.extractLsb' 16 8

/-- `A = w[15:8]`. -/
def aField (w : OpWord) : Byte := w.extractLsb' 8 8

/-- `B = w[7:0]`. -/
def bField (w : OpWord) : Byte := w.extractLsb' 0 8

/-- `B[7:4]`, which `encode` requires to be 0. -/
def bHigh (w : OpWord) : BitVec 4 := (bField w).extractLsb' 4 4

/-- `B[3:0]`, the digit of `encode` (R49). -/
def bDigit (w : OpWord) : Digit := (bField w).extractLsb' 0 4

/-! ### Decoder (R58) -/

/-- Why a word is illegal (R55). -/
inductive DecodeError where
  /-- `OP` is 0x00 or in 0x08 to 0xFF. -/
  | noSuchOperation (op : Byte)
  /-- A field the row of `OP` marks "must be" 0 is not 0. -/
  | fieldNotZero (op : Byte)
deriving DecidableEq, Repr

/-- Accept `i` if the row's must-be-zero fields are zero (R55). -/
def acceptIf (op : Byte) (zero : Bool) (i : Instr) : Except DecodeError Instr :=
  if zero then .ok i else .error (.fieldNotZero op)

/-- `decode` of R58. -/
def decode (w : OpWord) : Except DecodeError Instr :=
  match (opField w).toNat with
  | 0x01 => acceptIf (opField w) (aField w == 0 && bHigh w == 0) (.encode (bDigit w))
  | 0x02 => acceptIf (opField w) (aField w == 0) (.withColon (bField w))
  | 0x03 => acceptIf (opField w) (aField w == 0) (.withDecimal (bField w))
  | 0x04 => acceptIf (opField w) (aField w == 0 && bField w == 0) .blank
  | 0x05 => .ok (.shiftOut (aField w) (bField w))
  | 0x06 => acceptIf (opField w) (aField w == 0 && bField w == 0) .startRefresh
  | 0x07 => acceptIf (opField w) (aField w == 0 && bField w == 0) .takeRefresh
  | _ => .error (.noSuchOperation (opField w))

/-- The word is illegal: performing it raises `F_ILLEGAL` (R55, R58). -/
def isIllegal (w : OpWord) : Bool :=
  match decode w with
  | .ok _ => false
  | .error _ => true

/-! ### Encoder (R48, R59) -/

/-- `0xOOAABB` from its three fields (R48). -/
def packWord (op a b : Byte) : OpWord := op ++ a ++ b

/-- The word of an operation, from the table of R59. -/
def encodeInstr : Instr → OpWord
  | .encode d => packWord 0x01 0 (0#4 ++ d)
  | .withColon p => packWord 0x02 0 p
  | .withDecimal p => packWord 0x03 0 p
  | .blank => packWord 0x04 0 0
  | .shiftOut s e => packWord 0x05 s e
  | .startRefresh => packWord 0x06 0 0
  | .takeRefresh => packWord 0x07 0 0

/-- The `match` column of the operation's row in R50. -/
def rowMatch : Instr → OpWord
  | .encode _ => 0x010000
  | .withColon _ => 0x020000
  | .withDecimal _ => 0x030000
  | .blank => 0x040000
  | .shiftOut _ _ => 0x050000
  | .startRefresh => 0x060000
  | .takeRefresh => 0x070000

/-- The `mask` column of the operation's row in R50. -/
def rowMask : Instr → OpWord
  | .encode _ => 0xFFFFF0
  | .withColon _ => 0xFFFF00
  | .withDecimal _ => 0xFFFF00
  | .blank => 0xFFFFFF
  | .shiftOut _ _ => 0xFF0000
  | .startRefresh => 0xFFFFFF
  | .takeRefresh => 0xFFFFFF

/-! ### The opcode table's view of a word -/

/-- The operation the decoder reads from an operation word of `nbits` bits with value `w`, numbered as
spec/opcode_table.json numbers it. The word is one number of 24 bits and has no byte order (R48), so the
table's numbering is the word's own; bits above `nbits` are 0. -/
def decodeTableWord (nbits w : Nat) : Option Instr :=
  if w < 2 ^ 24 ∧ nbits ≤ 24 then (decode (BitVec.ofNat 24 w)).toOption else none

end Sys2Proof
end

