-- ==== Sys2Proof/Config.lean ====
section
/-!
DEFINITION. What is fixed for a run of the block: the parameters of spec/00_scope.md R7, and the free
values. An `opaque` constant has no body: no proof can see its value, so a claim holds for every value.
-/

namespace Sys2Proof

/-- The three output pins (R70). -/
inductive Pin where
  | latch
  | clock
  | data
deriving DecidableEq, Repr

/-- What a line of the display can be (R7 `SR_OUTPUT_MAP`, R29). -/
inductive DisplayLine where
  /-- One of the seven segment lines, the line of that pattern bit. -/
  | segment (k : Fin 7)
  /-- The colon or decimal-point line, pattern bit 7 (R7, R64). -/
  | indicator
  /-- A digit-enable line. -/
  | digit (i : Fin 4)
  /-- A stage output that drives nothing. -/
  | unconnected
deriving DecidableEq, Repr, Inhabited

/-- A normalized analog reading, in [0.0, 1.0] (R103, R112; U15). -/
abbrev Reading := { a : ℚ // 0 ≤ a ∧ a ≤ 1 }

/-- The seven segments, for the informative `SEGMENT_BIT_MAP` (R7). -/
inductive Segment where
  | a | b | c | d | e | f | g
deriving DecidableEq, Repr

namespace Config

/-! ### The encoder's table -/

/-- `SEG_TABLE[0]`, from the source (R62). -/
def segZero : Byte := 0xC0

/-- `SEG_TABLE[9]`, from the source (R62). -/
def segNine : Byte := 0x90

/-- FREE VALUE. Bits 6 to 0 of `SEG_TABLE[d]` for `d` in 1 to 8, which the source elides (R62; U2). -/
opaque segLow : Digit → BitVec 7

/-- `SEG_TABLE` (R7, R62): entries 0 and 9 from the source, the others a parameter whose bit 7 is 1. -/
def segTable (d : Digit) : Byte :=
  if d = 0 then segZero else if d = 9 then segNine else (1#1 ++ segLow d : BitVec 8)

/-- The conventional common-anode table, the parameter's default (R62; PRESUMED, from general knowledge).
Nothing in the machine reads it: a claim about a default entry names the table. -/
def defaultSegTable (d : Digit) : Byte :=
  match d.toNat with
  | 0 => 0xC0 | 1 => 0xF9 | 2 => 0xA4 | 3 => 0xB0 | 4 => 0x99
  | 5 => 0x92 | 6 => 0x82 | 7 => 0xF8 | 8 => 0x80 | 9 => 0x90
  | _ => 0xFF

/-- The constraints R62 puts on every value of `SEG_TABLE`. -/
def SegTableOk (T : Digit → Byte) : Prop :=
  T 0 = 0xC0 ∧ T 9 = 0x90 ∧ ∀ d : Digit, d ≤ 9 → (T d).getLsbD 7 = true

/-! ### Draws -/

/-- FREE VALUE. How many turns other agents take between the timer's firings (R93; U7, U8): the number
drawn when the draw counter stands at `n`. -/
opaque fireGap : Nat → Nat

/-- FREE VALUE. Whether `CLOCK <- 1` from `Unknown` is a rising edge (R79; U4). -/
opaque clockEdgeFromUnknown : Nat → Bool

/-- FREE VALUE. Whether `LATCH <- 1` from `Unknown` is a rising edge (R80; U4). -/
opaque latchEdgeFromUnknown : Nat → Bool

/-! ### OPEN parameters: the enable bytes, the display lines and the pins -/

/-- FREE VALUE. The bit of an enable byte that `DIGIT_ENABLE[i]` drives to 0 (R7, R106; D19). -/
opaque enableLine : Fin 4 → Fin 8

/-- FREE VALUE. Bits of an enable byte that are digit-enable lines beside those of `enableLine`. -/
opaque otherLine : Fin 8 → Bool

/-- FREE VALUE. The bits of `DIGIT_ENABLE[i]` that are no digit-enable lines. -/
opaque offLineBits : Fin 4 → Byte

/-- Bit `k` of an enable byte is a digit-enable line. -/
def isDigitLine (k : Fin 8) : Bool := otherLine k || (List.finRange 4).any fun j => enableLine j == k

/-- The digit-enable lines of an enable byte. -/
def digitLines : List (Fin 8) := (List.finRange 8).filter isDigitLine

/-- `DIGIT_ENABLE` (R7; D19), OPEN but for its constraint: each value asserts exactly one digit-enable line. Any
byte table and set of lines that meet the constraint are a choice of the three free values. -/
def digitEnable (i : Fin 4) : Byte :=
  BitVec.ofFnLE fun k => k != enableLine i && (isDigitLine k || (offLineBits i).getLsbD k)

/-- `v` asserts (drives to 0) exactly one of the digit-enable lines `lines` (R7, R9, R106, R135). -/
def AssertsExactlyOne (lines : List (Fin 8)) (v : Byte) : Prop :=
  (lines.filter fun k : Fin 8 => v.getLsbD k.val = false).length = 1

/-- OPEN (R7, R29; D9). Which display line each bit of `SR_OUT` drives. -/
opaque srOutputMap : Fin 16 → DisplayLine

/-- OPEN (R7; D27). The physical pin number of each output pin. -/
opaque pinAssign : Pin → Nat

/-! ### Informative parameters (R7; D23, D28): no rule depends on them -/

/-- `SR_LENGTH` (R7). -/
def srLength : Nat := 16

/-- `DIGIT_WIDTH` (R7). -/
def digitWidth : Nat := 4

/-- `REFRESH_PERIOD`, in microseconds (R7, R139). -/
def refreshPeriodMicros : Nat := 2000

/-- The slow trigger's period, in microseconds (R139). -/
def slowPeriodMicros : Nat := 1000000

/-- `SEGMENT_BIT_MAP`'s default, PRESUMED (R7; D23): bit 0 = a through bit 6 = g. -/
def segmentBit : Segment → Fin 7
  | .a => 0 | .b => 1 | .c => 2 | .d => 3 | .e => 4 | .f => 5 | .g => 6

/-! ### Parameters of the reference host -/

/-- `ELAPSED_INIT` (R97; D25, U17): a parameter of the host, and a FREE VALUE here. -/
opaque elapsedInit : Fin 6000

/-- The default of `ELAPSED_INIT` (R97; D25). Nothing in the machine reads it: a claim about the default names it. -/
def defaultElapsedInit : Fin 6000 := 0

/-- FREE VALUE. How many turns the others take between the slow timer's ticks (R97): the number drawn when that timer's
draw counter stands at `n`. -/
opaque slowGap : Nat → Nat

/-- FREE VALUE. `CV_RAW` away from the two points the source gives (R103; U16). -/
opaque cvRawElsewhere : Reading → Nat

/-- `CV_RAW(a)`, the truncated product of an analog reading, fixed only at two points (R103). -/
def cvRaw (a : Reading) : Nat :=
  if a.val = 1 / 2 then 165 else if a.val = 1 then 330 else cvRawElsewhere a

end Config

end Sys2Proof
end

