-- ==== Sys2Proof/Machine/State.lean ====
section
/-!
DEFINITION. The state of the block (spec/10_state.md R15) with the model's own fields beside it, the reasons a step
can stop, and the state after reset (R33, R129). Plain data.
-/

namespace Sys2Proof.Machine

/-- The level an output pin is driven to; `unknown` for a pin nothing has yet driven (R16). -/
inductive PinLevel where
  | lo
  | hi
  | unknown
deriving DecidableEq, Repr

/-- The sixteen bits of a stage of the external shift register, bit `k` at index `k`, each known or
unknown (R28, R29). -/
abbrev Stage := Vector (Option Bool) 16

/-- The faults of R115, with the value each records. `FAULT` holds one; a step of a faulted block answers it. -/
inductive Fault where
  /-- `F_ILLEGAL`, code 1 (R116). Recorded when the host issues a word that matches no row of R50; every later step
  answers it, since a fault stops every agent (R118). SAFE: the spec's own fault, no value is invented. -/
  | illegal (w : OpWord)
  /-- `F_DIGIT_RANGE`, code 2 (R117). Recorded by `encode d` with `d > 9`; every later step answers it (R118).
  SAFE: where the source leaves the result undefined the block stops. -/
  | digitRange (d : Digit)
deriving DecidableEq, Repr

/-- The code of a fault in R115. -/
def Fault.code : Fault → Nat
  | .illegal _ => 1
  | .digitRange _ => 2

/-- Why the model gives no next state although the block has not faulted. -/
inductive Refusal where
  /-- An operation the model gives no meaning: raised by no arm, since every operation has its meaning. SAFE. -/
  | notModelled (mnemonic : String)
  /-- `REFUSED` is set: every step answers this (R119). No step of this model sets the mark. SAFE. -/
  | refusedMark
  /-- `shiftOut` performed while a transfer is in progress, which the spec excludes: "SER_K = none holds, because the
  host waits for completion" (R73, R133). Raised by `execShiftOut`; `step` never reaches it, because it lets the
  host move only when the serializer is idle. SAFE. -/
  | serializerBusy
deriving DecidableEq, Repr

/-- What an operation hands back to the host: `return v` of the pseudocode (R13, R39). -/
inductive ReturnValue where
  /-- A segment pattern. -/
  | pattern (v : Byte)
  /-- The old `RF_PEND`. -/
  | flag (b : Bool)
  /-- The operation ended and returns no value. -/
  | noValue
deriving DecidableEq, Repr

/-- The state record of R15, then the model's own fields: the host's operations waiting to be issued, the block's
return port, and the two numbers that place the timer's firings and the draws. -/
structure State where
  /-- `LATCH` (R17). -/
  latch : PinLevel
  /-- `CLOCK` (R18). -/
  clock : PinLevel
  /-- `DATA` (R19). -/
  data : PinLevel
  /-- `SER_K`: the next write of the transfer in progress; `none` is idle (R21). -/
  serK : Option (Fin 50)
  /-- `SER_SEG` (R22). -/
  serSeg : Byte
  /-- `SER_SEL` (R22). -/
  serSel : Byte
  /-- `RF_RUN` (R26). -/
  rfRun : Bool
  /-- `RF_PEND` (R27). -/
  rfPend : Bool
  /-- `SR_SHIFT` (R28). -/
  srShift : Stage
  /-- `SR_OUT` (R29). -/
  srOut : Stage
  /-- `FAULT`, sticky (R30). -/
  fault : Option Fault
  /-- `REFUSED` (R31). -/
  refused : Bool
  /-- MODEL'S OWN. The operation words the host has yet to issue, the next one first (R14: "the host supplies
  operations one at a time"). -/
  pendingOps : List OpWord
  /-- MODEL'S OWN. The return port: what the operation issued last handed back; `none` before it has completed. -/
  returned : Option ReturnValue
  /-- MODEL'S OWN. Turns of other agents before the timer's next firing; `none` until that number is drawn (R93). -/
  fireIn : Option Nat
  /-- MODEL'S OWN. How many draws have been made: the argument of the next draw. -/
  draws : Nat
deriving DecidableEq, Repr

/-- The state after reset or power-on (R33, R129). `SER_SEG` and `SER_SEL` are unspecified there and 0 here (log
entry 1); the model's own fields hold no operation, no result, no drawn number (log entry 2). -/
def State.reset : State where
  latch := .unknown
  clock := .unknown
  data := .unknown
  serK := none
  serSeg := 0
  serSel := 0
  rfRun := false
  rfPend := false
  srShift := Vector.replicate 16 none
  srOut := Vector.replicate 16 none
  fault := none
  refused := false
  pendingOps := []
  returned := none
  fireIn := none
  draws := 0

end Sys2Proof.Machine
end

