-- ==== Sys2Proof/Machine/Ops.lean ====
section
/-!
DEFINITION. The named operations the meanings share: the gate every agent passes (spec/60_exceptions.md R118, R119), raising a
fault (R116, R117), handing a result back (R13), and driving a pin with the external shift register's reaction
(spec/41_serializer.md R79, R80). There is no return from a fault (R118) and no trap return (R124).
-/

namespace Sys2Proof.Machine

/-! ### The gate and the fault -/

/-- No agent has a step once `FAULT` is set or `REFUSED` is 1 (R118, R119). -/
def gated (s : State) (o : Host.Outcome State Fault Refusal) : Host.Outcome State Fault Refusal :=
  match s.fault with
  | some f => .fault f
  | none => if s.refused then .refused .refusedMark else o

/-- The block has neither faulted nor refused. -/
abbrev State.isOpen (s : State) : Prop := s.fault = none ∧ s.refused = false

/-- Raise a fault: `FAULT` records it, no value is returned, nothing else changes (R116, R117). -/
def raiseFault (f : Fault) (s : State) : State :=
  { s with fault := some f, returned := none }

/-- `return v`: hand a result back to the host (R13). -/
def giveBack (v : ReturnValue) (s : State) : State :=
  { s with returned := some v }

/-! ### Pins and stages -/

/-- The level a write of `b` drives (0 = Lo, 1 = Hi). -/
def PinLevel.ofBit : Bool → PinLevel
  | false => .lo
  | true => .hi

/-- The bit a level stands for; none for `unknown` (R79). -/
def PinLevel.bit? : PinLevel → Option Bool
  | .lo => some false
  | .hi => some true
  | .unknown => none

/-- Is a write of `b` to a pin at `old` a rising edge? From `unknown` it is one or not by the draw (R79, R80). -/
def rising (old : PinLevel) (b drawn : Bool) : Bool :=
  match b, old with
  | false, _ => false
  | true, .lo => true
  | true, .hi => false
  | true, .unknown => drawn

/-- The draw counter after a write of `b` to a pin at `old`: a write of 1 from `unknown` uses a draw up. -/
def drawsAfter (old : PinLevel) (b : Bool) (n : Nat) : Nat :=
  match b, old with
  | true, .unknown => n + 1
  | _, _ => n

/-- Shift a stage towards bit 15 and take `b` into bit 0 (R79). -/
def shiftIn (v : Stage) (b : Option Bool) : Stage := (#v[b] ++ v).pop

/-- The stage that holds the 16 known bits of `w`. -/
def stageOf (w : BitVec 16) : Stage := Vector.ofFn fun k : Fin 16 => some (w.getLsbD k)

/-- `DATA <- b` (R19). -/
def driveData (b : Bool) (s : State) : State :=
  { s with data := .ofBit b }

/-- `CLOCK <- b`; at a rising edge the external register shifts `DATA` in (R18, R79). -/
def driveClock (b : Bool) (s : State) : State :=
  { s with
    clock := .ofBit b
    srShift := if rising s.clock b (Config.clockEdgeFromUnknown s.draws) then shiftIn s.srShift s.data.bit? else s.srShift
    draws := drawsAfter s.clock b s.draws }

/-- `LATCH <- b`; at a rising edge the external register copies its shift stage to its outputs (R17, R80). -/
def driveLatch (b : Bool) (s : State) : State :=
  { s with
    latch := .ofBit b
    srOut := if rising s.latch b (Config.latchEdgeFromUnknown s.draws) then s.srShift else s.srOut
    draws := drawsAfter s.latch b s.draws }

/-- The levels of the display's lines, as `SR_OUTPUT_MAP` connects them to `SR_OUT` (R29). -/
def displayLevels (s : State) : List (DisplayLine × Option Bool) :=
  (List.finRange 16).map fun k => (Config.srOutputMap k, s.srOut[k])

end Sys2Proof.Machine
end

