-- ==== Sys2Proof/Machine/Operands.lean ====
section
/-!
DEFINITION. The encoder's combinational stages (spec/40_encoder.md R61): what `encode`, `withColon`, `withDecimal` and `blank`
compute from their operands. They read no state (R24, R67).
-/

namespace Sys2Proof.Machine

/-- The digit stage over a table: `SEG = SEG_TABLE[DIGIT]` for a digit 0 to 9, nothing for 10 to 15 (R61, R63). -/
def digitStageWith (T : Digit → Byte) (d : Digit) : Option Byte :=
  if d ≤ 9 then some (T d) else none

/-- The digit stage with the block's own `SEG_TABLE` (R61, R62). -/
def digitStage (d : Digit) : Option Byte := digitStageWith Config.segTable d

/-- The indicator stage: `Q = P & 0x7F` (R61, R64, R65). -/
def indicatorStage (p : Byte) : Byte := p &&& 0x7F

/-- The blank constant: `BLANK = 0xFF` (R61, R66). -/
def blankPattern : Byte := 0xFF

end Sys2Proof.Machine
end

