-- ==== Sys2Proof/Machine/Encoder.lean ====
section
/-!
DEFINITION. The meanings of the encoder's operations (spec/40_encoder.md R63 to R66). Each hands back its result and writes no state of
R15, but for `encode` recording its fault (R67).
-/

namespace Sys2Proof.Machine

/-- `encode d` (R63): the table entry of a digit 0 to 9; `F_DIGIT_RANGE` for 10 to 15 (R117). -/
def execEncode (d : Digit) (s : State) : Host.Outcome State Fault Refusal :=
  gated s <|
    match digitStage d with
    | some p => .next (giveBack (.pattern p) s)
    | none => .next (raiseFault (.digitRange d) s)

/-- `withColon p` (R64). -/
def execWithColon (p : Byte) (s : State) : Host.Outcome State Fault Refusal :=
  gated s (.next (giveBack (.pattern (indicatorStage p)) s))

/-- `withDecimal p` (R65): the same function as `withColon`. -/
def execWithDecimal (p : Byte) (s : State) : Host.Outcome State Fault Refusal :=
  gated s (.next (giveBack (.pattern (indicatorStage p)) s))

/-- `blank` (R66). -/
def execBlank (s : State) : Host.Outcome State Fault Refusal :=
  gated s (.next (giveBack (.pattern blankPattern) s))

end Sys2Proof.Machine
end

