-- ==== Sys2Proof/Machine/Flags.lean ====
section
/-!
DEFINITION. The two single-bit cells of the refresh-flag generator (spec/10_state.md R25 to R27) and the three ways they
change (spec/42_refresh_flag.md R86 to R90). No operation of the encoder or the serializer touches them.
-/

namespace Sys2Proof.Machine

/-- `RF_RUN <- 1` (R87). -/
def startTimer (s : State) : State := { s with rfRun := true }

/-- The fire step: `RF_PEND <- 1` and nothing else (R88). -/
def fire (s : State) : State := { s with rfPend := true }

/-- The clearing half of the atomic read-and-clear (R90). -/
def clearPending (s : State) : State := { s with rfPend := false }

/-- Fire is enabled exactly when `RF_RUN = 1` and `FAULT = none` (R88). -/
def fireEnabled (s : State) : Bool := s.rfRun && s.fault.isNone

end Sys2Proof.Machine
end

