-- ==== Sys2Proof/Machine/RefreshFlag.lean ====
section
/-!
DEFINITION. The meanings of the refresh-flag generator's operations (spec/42_refresh_flag.md R87, R90). The timer's fire step is
`fire` in Machine/Flags.lean; it is no operation of the host (R125).
-/

namespace Sys2Proof.Machine

/-- `startRefresh` (R87): no change to `RF_RUN` when it is 1 already. -/
def execStartRefresh (s : State) : Host.Outcome State Fault Refusal :=
  gated s (.next (giveBack .noValue (startTimer s)))

/-- `takeRefresh` (R90): one atomic read-and-clear, returning the old `RF_PEND`. -/
def execTakeRefresh (s : State) : Host.Outcome State Fault Refusal :=
  gated s (.next (giveBack (.flag s.rfPend) (clearPending s)))

end Sys2Proof.Machine
end

