-- ==== Sys2Proof/Machine/Serializer.lean ====
section
/-!
DEFINITION. The 3-wire serializer (spec/41_serializer.md): the bit stream, the 50 writes of one call, the serializer's own step,
and the meaning of `shiftOut`. `shiftOut` is issued in one step (R73, first line) and then takes 50 serializer steps
(R74), between which the refresh timer may fire (R84).
-/

namespace Sys2Proof.Machine

/-- `stream[i]`, the bit sent `i`-th, `i` in 0 to 15 (R71). -/
def streamBit (seg sel : Byte) (i : Nat) : Bool :=
  if i < 8 then seg.getLsbD (7 - i) else sel.getLsbD (15 - i)

/-- One write: a pin and the level it is driven to (R72). -/
structure PinWrite where
  pin : Pin
  level : Bool
deriving DecidableEq, Repr

/-- `W[j]` of the call with operands `seg` and `sel`, in the closed form of R72. -/
def writeAt (seg sel : Byte) (j : Nat) : PinWrite :=
  if j = 0 then ⟨.latch, false⟩
  else if j = 49 then ⟨.latch, true⟩
  else
    match (j - 1) % 3 with
    | 0 => ⟨.data, streamBit seg sel ((j - 1) / 3)⟩
    | 1 => ⟨.clock, false⟩
    | _ => ⟨.clock, true⟩

/-- `W[0..49]` (R72). -/
def writes (seg sel : Byte) : List PinWrite := (List.range 50).map (writeAt seg sel)

/-- Perform a write on its pin, with the external register's reaction (R74, R79, R80). -/
def applyWrite (w : PinWrite) (s : State) : State :=
  match w.pin with
  | .latch => driveLatch w.level s
  | .clock => driveClock w.level s
  | .data => driveData w.level s

/-- The index after `j`: `some (j+1)`, and `none` after 49 (R74). -/
def nextIndex (j : Fin 50) : Option (Fin 50) :=
  if h : j.val < 49 then some ⟨j.val + 1, by omega⟩ else none

/-- What the host sees after write `j`: the call returns, with no value, at the last write (R74). -/
def returnedAfter (j : Fin 50) (r : Option ReturnValue) : Option ReturnValue :=
  if j.val < 49 then r else some .noValue

/-- One serializer step at index `j` (R74). -/
def serializerStep (j : Fin 50) (s : State) : State :=
  let t := applyWrite (writeAt s.serSeg s.serSel j) s
  { t with serK := nextIndex j, returned := returnedAfter j t.returned }

/-- Issue of a call: capture the operands and set `SER_K <- some 0` (R22, R73). -/
def startTransfer (seg sel : Byte) (s : State) : State :=
  { s with serSeg := seg, serSel := sel, serK := some 0, returned := none }

/-- `shiftOut s, e` (R73): issue the call. No operand is checked (R83). -/
def execShiftOut (seg sel : Byte) (s : State) : Host.Outcome State Fault Refusal :=
  gated s <|
    match s.serK with
    | none => .next (startTransfer seg sel s)
    | some _ => .refused .serializerBusy

/-- The serializer's next step, if a transfer is in progress; an idle serializer has no step (R74). -/
def serializerTurn (s : State) : State :=
  match s.serK with
  | some j => serializerStep j s
  | none => s

/-- `n` serializer steps. -/
def serializerTurns : Nat → State → State
  | 0, s => s
  | n + 1, s => serializerTurns n (serializerTurn s)

/-- The whole of R73 as one operation on the state: issue, then 50 serializer steps. -/
def wholeCall (seg sel : Byte) (s : State) : State := serializerTurns 50 (startTransfer seg sel s)

end Sys2Proof.Machine
end

