-- ==== Sys2Proof/Machine/Dispatch.lean ====
section
/-!
DEFINITION. The dispatch: one arm per operation of spec/opcode_table.json, each a direct call of its meaning.
-/

namespace Sys2Proof.Machine

def exec (i : Instr) (s : State) : Host.Outcome State Fault Refusal :=
  match i with
  | .encode d => Sys2Proof.Machine.execEncode d s
  | .withColon p => Sys2Proof.Machine.execWithColon p s
  | .withDecimal p => Sys2Proof.Machine.execWithDecimal p s
  | .blank => Sys2Proof.Machine.execBlank s
  | .shiftOut seg sel => Sys2Proof.Machine.execShiftOut seg sel s
  | .startRefresh => Sys2Proof.Machine.execStartRefresh s
  | .takeRefresh => Sys2Proof.Machine.execTakeRefresh s

end Sys2Proof.Machine
end

