-- ==== Sys2Proof/Machine/Arbiter.lean ====
section
/-!
DEFINITION. Whose turn it is. Every step of every agent is atomic and takes its place in one total order
(spec/60_exceptions.md R122). The order is a free choice: `State.fireIn` holds, as plain data, how many turns of the other agents
come before the timer's next firing, and each such number is drawn anew under no law (spec/42_refresh_flag.md R93). Every
finite number of operations between two firings, and every number of firings between two operations, is so
admitted, and a running timer fires infinitely often (R93's fairness). A turn not taken by the timer goes to the
serializer while it is busy, since the host waits for it (R23, R133), and else to the host.
-/

namespace Sys2Proof.Machine

/-- The agent that moves next. -/
inductive Turn where
  /-- The refresh timer fires (R88). -/
  | timer
  /-- The serializer performs `W[j]` (R74). -/
  | serializer (j : Fin 50)
  /-- The host issues the word `w`; `rest` is left (R96). -/
  | host (w : OpWord) (rest : List OpWord)
  /-- No operation is waiting: the block waits for the host (R130). -/
  | wait
deriving DecidableEq, Repr

/-- Turns of other agents that come before the timer's next firing: the drawn number, or a fresh draw. -/
def turnsBeforeFire (s : State) : Nat :=
  match s.fireIn with
  | some n => n
  | none => Config.fireGap s.draws

/-- The next turn is the timer's: fire is enabled and no other agent's turn comes first (R88). -/
def timerIsNext (s : State) : Bool := fireEnabled s && turnsBeforeFire s == 0

/-- The turn that comes next. -/
def turnOf (s : State) : Turn :=
  if timerIsNext s then .timer
  else
    match s.serK with
    | some j => .serializer j
    | none =>
      match s.pendingOps with
      | w :: ws => .host w ws
      | [] => .wait

/-- The timer's turn: fire, and leave the number of turns before the next firing to a new draw (R88, R93). -/
def timerTurn (s : State) : State :=
  { fire s with fireIn := none, draws := s.draws + 1 }

/-- Count another agent's turn against the timer's next firing; a timer that is not enabled counts nothing. -/
def countTurn (s : State) : State :=
  if fireEnabled s then { s with fireIn := some (turnsBeforeFire s - 1) } else s

/-- The host issues a word: an operation is performed, an illegal word raises `F_ILLEGAL` (R58, R116). -/
def issue (w : OpWord) (s : State) : Host.Outcome State Fault Refusal :=
  gated s <|
    match decode w with
    | .ok i => exec i s
    | .error _ => .next (raiseFault (.illegal w) s)

/-- Take a turn. -/
def takeTurn (t : Turn) (s : State) : Host.Outcome State Fault Refusal :=
  match t with
  | .timer => .next (timerTurn s)
  | .serializer j => .next (serializerStep j (countTurn s))
  | .host w ws => issue w { countTurn s with pendingOps := ws }
  | .wait => .next (countTurn s)

/-- The operation the next step performs, if it performs one. -/
def nextOperation (s : State) : Option Instr :=
  match turnOf s with
  | .host w _ => (decode w).toOption
  | _ => none

/-- A state in which the next turn is the host's and its next word is `w`: no transfer is in progress, and a running
timer leaves at least one turn to others. `FAULT` and `REFUSED` stay: only reset clears them (R118). -/
def readyToIssue (s : State) (w : OpWord) : State :=
  { s with
    pendingOps := w :: s.pendingOps
    serK := none
    fireIn :=
      match s.rfRun, s.fireIn with
      | false, f => f
      | true, some (n + 1) => some (n + 1)
      | true, _ => some 1 }

end Sys2Proof.Machine
end

