-- ==== Sys2Proof/Machine/Step.lean ====
section
/-!
DEFINITION. One step of the block: the agent whose turn it is takes its step, unless a fault or a refusal has stopped every
agent (spec/60_exceptions.md R118, R119, R122).
-/

namespace Sys2Proof.Machine

/-- One step. -/
def step (s : State) : Host.Outcome State Fault Refusal := gated s (takeTurn (turnOf s) s)

/-- The state in which the host is about to issue the operation word `w`. The block fetches nothing (R14): the word
is put at the head of the host's waiting operations, and the turn is made the host's. -/
def State.withFetchWord (s : State) (_nbits w : Nat) : State := readyToIssue s (BitVec.ofNat 24 w)

end Sys2Proof.Machine
end

