-- ==== Sys2Proof/WellFormed.lean ====
section
/-!
DEFINITION. Well-formedness. An `Instr` is well-formed by its types. What can be ill-formed is a WRITTEN
operation, whose operands are numbers without a bound: spec/30_encoding.md R59 gives each operand's range, and
"an operand outside its range has no word and is rejected by the assembler".
-/

namespace Sys2Proof

/-- An operation as it is written, operands unbounded (R59). -/
inductive AsmOp where
  | encode (d : Nat)
  | withColon (p : Nat)
  | withDecimal (p : Nat)
  | blank
  | shiftOut (s e : Nat)
  | startRefresh
  | takeRefresh
deriving DecidableEq, Repr

/-- Every operand is inside the range R59 gives it. -/
def AsmOp.wf : AsmOp → Bool
  | .encode d => decide (d < 16)
  | .withColon p => decide (p < 256)
  | .withDecimal p => decide (p < 256)
  | .blank => true
  | .shiftOut s e => decide (s < 256) && decide (e < 256)
  | .startRefresh => true
  | .takeRefresh => true

/-- The operation a well-formed written operation stands for; `none` for an ill-formed one (R59). -/
def AsmOp.toInstr (a : AsmOp) : Option Instr :=
  if a.wf then
    match a with
    | .encode d => some (.encode (BitVec.ofNat 4 d))
    | .withColon p => some (.withColon (BitVec.ofNat 8 p))
    | .withDecimal p => some (.withDecimal (BitVec.ofNat 8 p))
    | .blank => some .blank
    | .shiftOut s e => some (.shiftOut (BitVec.ofNat 8 s) (BitVec.ofNat 8 e))
    | .startRefresh => some .startRefresh
    | .takeRefresh => some .takeRefresh
  else none

end Sys2Proof
end

