-- ==== Sys2Proof/Machine/Assembler.lean ====
section
/-!
DEFINITION. The assembler of spec/30_encoding.md R59: one operation per line, a mnemonic and comma-separated operands, numbers in
decimal or with `0x`, a comment from `;` on. There are no pseudo-instructions (R60).
-/

namespace Sys2Proof

/-- Why a line has no word. -/
inductive AsmError where
  /-- The line's first word is no mnemonic of R59. -/
  | unknownMnemonic
  /-- An operand is no number. -/
  | badNumber
  /-- The operation has another number of operands. -/
  | wrongOperands
  /-- An operand is outside its range (R59). -/
  | outOfRange
deriving DecidableEq, Repr

/-- The value of a digit character. -/
def digitValue (c : Char) : Nat :=
  let n := c.toNat
  if 48 ≤ n ∧ n ≤ 57 then n - 48
  else if 97 ≤ n ∧ n ≤ 102 then n - 87
  else if 65 ≤ n ∧ n ≤ 70 then n - 55
  else 16

/-- A number of digits in `base` after the value `acc`; none at a character that is no digit of the base. -/
def readDigits (base : Nat) : Nat → List Char → Option Nat
  | acc, [] => some acc
  | acc, c :: cs => if digitValue c < base then readDigits base (acc * base + digitValue c) cs else none

/-- A number, decimal or with the `0x` mark (R59). -/
def readNumber : List Char → Option Nat
  | [] => none
  | '0' :: 'x' :: c :: cs => readDigits 16 0 (c :: cs)
  | cs => readDigits 10 0 cs

/-- Blanks taken off both ends. -/
def trimBlanks (cs : List Char) : List Char :=
  ((cs.dropWhile Char.isWhitespace).reverse.dropWhile Char.isWhitespace).reverse

/-- The pieces of a line between commas. -/
def splitCommas : List Char → List (List Char)
  | [] => [[]]
  | c :: cs =>
    match splitCommas cs with
    | [] => [[c]]
    | p :: ps => if c = ',' then [] :: p :: ps else (c :: p) :: ps

/-- The operand numbers of a line; a blank operand part has none. -/
def readOperands (cs : List Char) : Option (List Nat) :=
  if (trimBlanks cs).isEmpty then some [] else (splitCommas cs).mapM fun p => readNumber (trimBlanks p)

/-- The mnemonics of R59. -/
inductive Mnemonic where
  | encode | withColon | withDecimal | blank | shiftOut | startRefresh | takeRefresh
deriving DecidableEq, Repr

/-- The spelling of each mnemonic (R59). -/
def Mnemonic.table : List (List Char × Mnemonic) :=
  [("encode".toList, .encode), ("withColon".toList, .withColon), ("withDecimal".toList, .withDecimal),
   ("blank".toList, .blank), ("shiftOut".toList, .shiftOut), ("startRefresh".toList, .startRefresh),
   ("takeRefresh".toList, .takeRefresh)]

/-- The written operation of a mnemonic and its operands (R59). -/
def buildAsm (m : Mnemonic) (ops : List Nat) : Option AsmOp :=
  match m, ops with
  | .encode, [d] => some (.encode d)
  | .withColon, [p] => some (.withColon p)
  | .withDecimal, [p] => some (.withDecimal p)
  | .blank, [] => some .blank
  | .shiftOut, [s, e] => some (.shiftOut s e)
  | .startRefresh, [] => some .startRefresh
  | .takeRefresh, [] => some .takeRefresh
  | _, _ => none

/-- A line as the operation written on it; `none` for a blank line or a comment alone (R59). -/
def parseLine (line : List Char) : Except AsmError (Option AsmOp) :=
  let code := trimBlanks (line.takeWhile fun c => c != ';')
  if code.isEmpty then .ok none
  else
    match Mnemonic.table.lookup (code.takeWhile fun c => !c.isWhitespace) with
    | none => .error .unknownMnemonic
    | some m =>
      match readOperands (code.dropWhile fun c => !c.isWhitespace) with
      | none => .error .badNumber
      | some ops =>
        match buildAsm m ops with
        | none => .error .wrongOperands
        | some a => .ok (some a)

/-- The word of a written operation; an operand outside its range has none (R59). -/
def assembleOp (a : AsmOp) : Except AsmError OpWord :=
  match a.toInstr with
  | some i => .ok (encodeInstr i)
  | none => .error .outOfRange

/-- The word of a line, `none` for a line without an operation (R59). -/
def assembleLine (line : List Char) : Except AsmError (Option OpWord) :=
  match parseLine line with
  | .error e => .error e
  | .ok none => .ok none
  | .ok (some a) => (assembleOp a).map some

end Sys2Proof
end

