-- ==== Sys2Proof/Machine/HostReference.lean ====
section
/-!
DEFINITION. The reference host (spec/45_host_reference.md): the environment that drives the block, not the block (R5, R32). Its cells,
the slow tick, the digit patterns, the button rules, and its main loop as a machine that issues one operation at a
time and reads what the block hands back (R96, R110). The block's `State` holds none of it.
-/

namespace Sys2Proof.Machine

/-- `DisplayMode` (R100). -/
inductive DisplayMode where
  | time
  | voltage
deriving DecidableEq, Repr

/-- How one digit's pattern is made from the encoder's operations (R102, R104). -/
inductive DigitPlan where
  /-- `encode n`. -/
  | plain (n : Nat)
  /-- `withColon (encode n)`. -/
  | colon (n : Nat)
  /-- `withDecimal (encode n)`. -/
  | decimal (n : Nat)
  /-- `blank`. -/
  | blank
deriving DecidableEq, Repr

/-- The digit number a plan gives to `encode`, if any. -/
def DigitPlan.number? : DigitPlan → Option Nat
  | .plain n => some n
  | .colon n => some n
  | .decimal n => some n
  | .blank => none

/-- Digit patterns in `TIME` mode (R102): `mins = T / 60`, `secs = T % 60`. -/
def planTime (T : Fin 6000) (i : Fin 4) : DigitPlan :=
  match i with
  | 0 => .plain (T.val / 60 / 10)
  | 1 => .colon (T.val / 60 % 10)
  | 2 => .plain (T.val % 60 / 10)
  | 3 => .plain (T.val % 60 % 10)

/-- Centivolts: the truncated product clamped to 999 (R103). -/
def centivolts (a : Reading) : Nat := min (Config.cvRaw a) 999

/-- Digit patterns in `VOLTAGE` mode (R104): `intPart = cv / 100`, `fracPart = cv % 100`. -/
def planVoltage (cv : Nat) (i : Fin 4) : DigitPlan :=
  match i with
  | 0 => .decimal (cv / 100)
  | 1 => .plain (cv % 100 / 10)
  | 2 => .plain (cv % 100 % 10)
  | 3 => .blank

/-- The plan of the digit `i` (R101): it reads ElapsedTime in `TIME` mode and the analog input in `VOLTAGE` mode. -/
def digitPlan (mode : DisplayMode) (T : Fin 6000) (a : Reading) (i : Fin 4) : DigitPlan :=
  match mode with
  | .time => planTime T i
  | .voltage => planVoltage (centivolts a) i

/-- The pattern a plan makes with the table `T`; none where `encode` would fault. -/
def planPattern (T : Digit → Byte) : DigitPlan → Option Byte
  | .plain n => digitStageWith T (BitVec.ofNat 4 n)
  | .colon n => (digitStageWith T (BitVec.ofNat 4 n)).map indicatorStage
  | .decimal n => (digitStageWith T (BitVec.ofNat 4 n)).map indicatorStage
  | .blank => some blankPattern

/-- What the host samples: the two buttons, high when idle (R107, R108), and the analog input, a draw
in [0.0, 1.0] (R112). -/
structure Inputs where
  resetHigh : Bool
  modeHigh : Bool
  analog : Reading
deriving DecidableEq, Repr

/-- Which indicator operation follows an `encode` in a refresh. -/
inductive Indicator where
  | off
  | colon
  | decimal
deriving DecidableEq, Repr

/-- Where the host stands in its program (R109, R110, R101). MODEL'S OWN: the source's main loop has a control point,
which no rule names. -/
inductive Phase where
  /-- INIT has not run (R109). -/
  | init
  /-- At the head of RUN's loop (R110). -/
  | loop
  /-- `takeRefresh` is issued; the mode was sampled. -/
  | took (mode : DisplayMode)
  /-- `encode` is issued for the active digit. -/
  | encoded (ind : Indicator)
  /-- The pattern's last operation is issued. -/
  | patterned
  /-- `shiftOut` is issued. -/
  | shifting
deriving DecidableEq, Repr

/-- The host's cells (R32). -/
structure RefHost where
  /-- ElapsedTime, in [0, 5999] (R97). -/
  elapsed : Fin 6000
  /-- ActiveDigitIndex (R99). -/
  activeDigit : Fin 4
  /-- The previous reset-button sample, true for high (R107). -/
  prevResetHigh : Bool
  /-- The slow trigger has been started (R97, R109). -/
  slowRun : Bool
  /-- The control point. -/
  phase : Phase
deriving DecidableEq, Repr

/-- The host before INIT (R97, R99, R107; D25). -/
def RefHost.reset : RefHost where
  elapsed := Config.elapsedInit
  activeDigit := 0
  prevResetHigh := true
  slowRun := false
  phase := .init

/-- The slow tick: `ElapsedTime = (ElapsedTime + 1) mod 6000` (R97); it has no step before INIT has started it. -/
def slowTick (h : RefHost) : RefHost :=
  if h.slowRun then { h with elapsed := ⟨(h.elapsed.val + 1) % 6000, Nat.mod_lt _ (by decide)⟩ } else h

/-- The reset button: `ElapsedTime <- 0` on a high to low transition, and keep the sample (R107). -/
def sampleReset (high : Bool) (h : RefHost) : RefHost :=
  { h with elapsed := if h.prevResetHigh && !high then 0 else h.elapsed, prevResetHigh := high }

/-- The mode button: `VOLTAGE` whenever it reads low, `TIME` otherwise (R108). -/
def modeOf (modeHigh : Bool) : DisplayMode := if modeHigh then .time else .voltage

/-- `ActiveDigitIndex <- (i + 1) mod 4` (R101). -/
def advanceDigit (h : RefHost) : RefHost :=
  { h with activeDigit := ⟨(h.activeDigit.val + 1) % 4, Nat.mod_lt _ (by decide)⟩ }

/-- The first operation of a refresh, and the phase after it (R101). -/
def beginRefresh (plan : DigitPlan) : Instr × Phase :=
  match plan with
  | .plain n => (.encode (BitVec.ofNat 4 n), .encoded .off)
  | .colon n => (.encode (BitVec.ofNat 4 n), .encoded .colon)
  | .decimal n => (.encode (BitVec.ofNat 4 n), .encoded .decimal)
  | .blank => (.blank, .patterned)

/-- `shiftOut seg, DIGIT_ENABLE[i]` (R101, R106). -/
def sendDigit (p : Byte) (h : RefHost) : Option Instr × RefHost :=
  (some (.shiftOut p (Config.digitEnable h.activeDigit)), { h with phase := .shifting })

/-- One step of the host's program, taken when the operation it issued last has completed: the operation it issues
now, if any (R96, R109, R110, R101). `ret` is what that last operation handed back. DESIGN CHOICE (log entry 22): R109
says only "start both tick triggers"; INIT here is one turn, which starts the slow trigger and issues
`startRefresh`, so the slow trigger is started first. -/
def hostStep (inp : Inputs) (ret : Option ReturnValue) (h : RefHost) : Option Instr × RefHost :=
  match h.phase with
  | .init => (some .startRefresh, { h with slowRun := true, phase := .loop })
  | .loop => (some .takeRefresh, { sampleReset inp.resetHigh h with phase := .took (modeOf inp.modeHigh) })
  | .took mode =>
    match ret with
    | some (.flag true) =>
      let r := beginRefresh (digitPlan mode h.elapsed inp.analog h.activeDigit)
      (some r.1, { h with phase := r.2 })
    | some (.flag false) => (none, { h with phase := .loop })
    | _ => (none, h)
  | .encoded ind =>
    match ret with
    | some (.pattern p) =>
      match ind with
      | .off => sendDigit p h
      | .colon => (some (.withColon p), { h with phase := .patterned })
      | .decimal => (some (.withDecimal p), { h with phase := .patterned })
    | _ => (none, h)
  | .patterned =>
    match ret with
    | some (.pattern p) => sendDigit p h
    | _ => (none, h)
  | .shifting => (none, { advanceDigit h with phase := .loop })

end Sys2Proof.Machine
end

