-- ==== Sys2Proof/Machine/System.lean ====
section
/-!
DEFINITION. The block driven by the reference host (spec/45_host_reference.md; spec/60_exceptions.md R126): the two together with
the slow timer. Whose turn it is, is read from plain data, as for the block alone (log entries 3 and 23): each timer counts
the turns of all others down to its next firing, so that each is fair (R93, R97), and any other turn goes to the
block while an operation is in progress and else to the host (R96).
-/

namespace Sys2Proof.Machine

/-- The block, its host, and the slow timer's place in the order of turns. -/
structure System where
  block : State
  ref : RefHost
  /-- MODEL'S OWN. Turns of the others before the slow timer's next tick; `none` until that number is drawn (R97). -/
  slowIn : Option Nat
  /-- MODEL'S OWN. How many ticks there have been: the argument of the slow timer's next draw. -/
  slowDraws : Nat
deriving DecidableEq, Repr

/-- Block and host at reset (R129; D25), no gap drawn. -/
def System.reset : System := { block := State.reset, ref := RefHost.reset, slowIn := none, slowDraws := 0 }

/-- Turns of the others that come before the slow timer's next tick: the drawn number, or a fresh draw. -/
def turnsBeforeTick (σ : System) : Nat :=
  match σ.slowIn with
  | some n => n
  | none => Config.slowGap σ.slowDraws

/-- The next turn is the slow timer's: INIT has started it and no other turn comes first (R97). -/
def slowIsNext (σ : System) : Bool := σ.ref.slowRun && turnsBeforeTick σ == 0

/-- Count another party's turn against the slow timer's next tick; a timer not yet started counts nothing. -/
def countSlow (σ : System) : System :=
  if σ.ref.slowRun then { σ with slowIn := some (turnsBeforeTick σ - 1) } else σ

/-- The operation issued last has completed: none is waiting and the serializer is idle (R23, R96). -/
def hostMayMove (s : State) : Bool := s.pendingOps.isEmpty && s.serK.isNone

/-- Who moves next in the whole display (R11, R126). -/
inductive SysTurn where
  /-- The slow timer ticks (R97). -/
  | slowTick
  /-- The block takes a step: its timer, its serializer, or the operation issued. -/
  | block
  /-- The host moves on (R110). -/
  | host
deriving DecidableEq, Repr

/-- The turn that comes next. -/
def sysTurnOf (σ : System) : SysTurn :=
  if slowIsNext σ then .slowTick
  else if hostMayMove σ.block && !timerIsNext σ.block then .host
  else .block

/-- The slow timer's turn: the tick, counted against the refresh timer, and a new gap left to a draw. A tick taken while a
fire was due leaves the next turn to the fire, so neither timer holds the other off for ever (R93, R97). -/
def slowTurn (σ : System) : System where
  block := countTurn σ.block
  ref := slowTick σ.ref
  slowIn := if timerIsNext σ.block then some (Config.slowGap (σ.slowDraws + 1) + 1) else none
  slowDraws := σ.slowDraws + 1

/-- The host's turn, counted against both timers: it takes one step of its program, with what it samples, and issues the
operation of that step, if any (R96, R110). -/
def hostTurn (inp : Inputs) (σ : System) : System :=
  let r := hostStep inp σ.block.returned σ.ref
  { countSlow σ with
    block := { countTurn σ.block with pendingOps := (r.1.map encodeInstr).toList }
    ref := r.2 }

/-- Put the block's next state into the system; a stop of the block is a stop of the system (R118). -/
def withBlock (σ : System) : Host.Outcome State Fault Refusal → Host.Outcome System Fault Refusal
  | .next t => .next { σ with block := t }
  | .fault f => .fault f
  | .refused r => .refused r

/-- The system goes on as `σ`, unless its block has stopped every agent (R118, R119). -/
def goOn (σ : System) : Host.Outcome System Fault Refusal := withBlock σ (gated σ.block (.next σ.block))

/-- One turn of the whole display; `inp` is what the host samples if the turn is its. -/
def systemStep (inp : Inputs) (σ : System) : Host.Outcome System Fault Refusal :=
  match sysTurnOf σ with
  | .slowTick => goOn (slowTurn σ)
  | .block => withBlock (countSlow σ) (step σ.block)
  | .host => goOn (hostTurn inp σ)

/-- A run of the whole display, with what the host would sample at each turn. -/
def systemRun : List Inputs → System → Host.Outcome System Fault Refusal
  | [], σ => .next σ
  | inp :: inps, σ =>
    match systemStep inp σ with
    | .next τ => systemRun inps τ
    | .fault f => .fault f
    | .refused r => .refused r

end Sys2Proof.Machine
end

