-- ==== Sys2Proof/Safety.lean ====
section
/-!
DEFINITION. The terms claims are stated in: the end of a run (spec/70_reset_and_hazards.md R141), the invariants, orders of turns, and the
counting of writes and edges.
-/

namespace Sys2Proof.Safety

open Sys2Proof.Machine

/-- A state in which a finite host program has ended: its last operation has completed, with no fault and no
refusal (R141). A faulted or refused state is none. -/
def IsEnd (s : State) : Prop := s.pendingOps = [] ∧ s.serK = none ∧ s.fault = none ∧ s.refused = false

/-- `n` firings of a timer, each taken only where fire is enabled (R88); those after the last operation are part of the
end of a run (R141). -/
def afterFires : Nat → State → State
  | 0, s => s
  | n + 1, s => afterFires n (if fireEnabled s then fire s else s)

/-- `k` steps of the block. -/
def runs (k : Nat) (s : State) : Host.Outcome State Fault Refusal := Host.Core.run Sys2Proof.core k s

/-- Fire is not enabled before `startRefresh`, so no refresh is pending before it (R90, R95, R130). -/
def QuietBeforeStart (s : State) : Prop := s.rfRun = false → s.rfPend = false

/-- The timer leaves the next `n` turns to the other agents, and its countdown stands at `f` after them. A gap not yet drawn
counts as the number that will be drawn. -/
def LeavesTurns (n : Nat) (s : State) (f : Option Nat) : Prop :=
  (s.rfRun = false ∧ f = s.fireIn) ∨
    ∃ m, s.rfRun = true ∧ turnsBeforeFire s = m + n ∧ f = if n = 0 then s.fireIn else some m

/-! ### The transfer in progress -/

/-- The rising clock edges that the writes `W[0..j-1]` hold (R72). -/
def bitsSent (j : Nat) : Nat := (j - 1) / 3

/-- What holds before `W[j]` of a transfer in progress (R72, R75, R76, R79): the latch is low once `W[0]` is done; `DATA` and
`CLOCK` are at the levels the writes before `W[j]` left; and the bits sent so far stand in the low end of the shift
stage, the last one in bit 0. -/
def TransferAt (s : State) (j : Nat) : Prop :=
  (1 ≤ j → s.latch = .lo) ∧
  (2 ≤ j → s.data = .ofBit (streamBit s.serSeg s.serSel ((j - 2) / 3))) ∧
  (3 ≤ j → s.clock = .ofBit (decide ((j - 1) % 3 ≠ 2))) ∧
  ∀ k : Fin 16, k.val < bitsSent j → s.srShift[k] = some (streamBit s.serSeg s.serSel (bitsSent j - 1 - k.val))

/-- The serializer's invariant: a transfer in progress stands where its index says. -/
def SerializerInv (s : State) : Prop := ∀ j : Fin 50, s.serK = some j → TransferAt s j.val

/-! ### Orders of turns inside one call (R84) -/

/-- The two agents that may move while a call is in progress. -/
inductive CallTurn where
  /-- The refresh timer, where fire is enabled. -/
  | fire
  /-- The serializer. -/
  | write
deriving DecidableEq, Repr

/-- One such turn. -/
def callTurn (t : CallTurn) (s : State) : State :=
  match t with
  | .fire => if fireEnabled s then Machine.fire s else s
  | .write => serializerTurn s

/-- The turns of a list, in its order. -/
def callTurns : List CallTurn → State → State
  | [], s => s
  | t :: ts, s => callTurns ts (callTurn t s)

/-! ### Writes and edges of one call (R78) -/

/-- How many of the 50 writes go to a pin. -/
def writeCount (p : Pin) (seg sel : Byte) : Nat := (writes seg sel).countP fun w => w.pin = p

/-- The rising edges of one pin in a list of writes: writes of 1 to it when its level was 0. `level` is its level
before, none where unknown. -/
def risingEdges (p : Pin) : Option Bool → List PinWrite → Nat
  | _, [] => 0
  | level, w :: ws =>
    if w.pin = p then (if w.level = true ∧ level = some false then 1 else 0) + risingEdges p (some w.level) ws
    else risingEdges p level ws

/-! ### The reference host (R111) -/

/-- The turns of one `refresh` call with the plan `plan` when neither timer moves in it: each operation is issued by the
host and performed by the block, `shiftOut` takes 50 writes more, and the host moves on (R101). -/
def refreshTurns (plan : DigitPlan) : Nat :=
  match plan with
  | .plain _ => 2 + 2 + 50 + 1
  | .colon _ => 2 + 2 + 2 + 50 + 1
  | .decimal _ => 2 + 2 + 2 + 50 + 1
  | .blank => 2 + 2 + 50 + 1

/-- Both timers leave the next `n` turns to the block and its host. -/
def TimersLeave (n : Nat) (σ : System) : Prop :=
  (σ.block.rfRun = false ∨ n ≤ turnsBeforeFire σ.block) ∧ (σ.ref.slowRun = false ∨ n ≤ turnsBeforeTick σ)

/-- The operation the reference host has issued is one its rules allow: a digit is 0 to 9 (R111), and `shiftOut` carries an
enable byte of `DIGIT_ENABLE`, which asserts exactly one digit-enable line (R106, R135). -/
def HostIssues : Instr → Prop
  | .encode d => d ≤ 9
  | .shiftOut _ e => (∃ i : Fin 4, e = Config.digitEnable i) ∧ Config.AssertsExactlyOne Config.digitLines e
  | _ => True

/-- What the reference host keeps true of the block: no fault, no refusal, and only allowed operations waiting. -/
def HostInv (σ : System) : Prop :=
  σ.block.isOpen ∧ ∀ w ∈ σ.block.pendingOps, ∃ i : Instr, decode w = .ok i ∧ HostIssues i

end Sys2Proof.Safety
end

