-- ==== Sys2Proof/Certificates/Slice0/Obligations.lean ====
section
/-!
DEFINITION. The statements of this model, from the numbered rules of spec/. Each is about the machine and its operations; none is
about a program. A statement whose docstring names a free value holds for every value of it.
-/

open Sys2Proof Sys2Proof.Machine Sys2Proof.Safety

/-! ### Words (30_encoding.md) -/

/-- Words written out from R50 and R59, and illegal ones, decode as the table says (95_test_vectors.md, 2.1). -/
def Obligations.TableWordsDecode : Prop :=
  decode 0x010000 = .ok (.encode 0) ∧ decode 0x01000A = .ok (.encode 10) ∧ decode 0x01000F = .ok (.encode 15) ∧
  decode 0x0200FF = .ok (.withColon 0xFF) ∧ decode 0x030000 = .ok (.withDecimal 0) ∧ decode 0x040000 = .ok .blank ∧
  decode 0x05C0FE = .ok (.shiftOut 0xC0 0xFE) ∧ decode 0x060000 = .ok .startRefresh ∧
  decode 0x070000 = .ok .takeRefresh ∧
  ([0x000000, 0x010010, 0x01001A, 0x010100, 0x020100, 0x040001, 0x060100, 0x070001, 0x080000, 0xFFFFFF].all
    isIllegal) = true

/-- Decode and encode agree: the word of every operation, at every value of its operands, decodes to it. -/
def Obligations.EveryOperationRoundTrips : Prop := ∀ i : Instr, decode (encodeInstr i) = .ok i

/-- Each legal word is the word of the one operation it decodes to. -/
def Obligations.LegalWordsEncodeBack : Prop := ∀ (w : OpWord) (i : Instr), decode w = .ok i → encodeInstr i = w

/-- R50: a word selects a row exactly when `w & mask = match`, and no two rows overlap. -/
def Obligations.WordsSelectRowsByMask : Prop :=
  (∀ (w : OpWord) (i : Instr), decode w = .ok i → w &&& rowMask i = rowMatch i) ∧
  (∀ (w : OpWord) (i : Instr), w &&& rowMask i = rowMatch i → ∃ j, decode w = .ok j ∧ rowMatch j = rowMatch i) ∧
  ∀ (w : OpWord) (i j : Instr), w &&& rowMask i = rowMatch i → w &&& rowMask j = rowMatch j → rowMatch i = rowMatch j

/-- R55: exactly these words are illegal. -/
def Obligations.IllegalWordsAreThese : Prop :=
  ∀ w : OpWord, isIllegal w = true ↔
    (opField w = 0 ∨ 8 ≤ opField w ∨
     (opField w ∈ [0x01, 0x02, 0x03, 0x04, 0x06, 0x07] ∧ aField w ≠ 0) ∨
     (opField w = 0x01 ∧ bHigh w ≠ 0) ∨
     (opField w ∈ [0x04, 0x06, 0x07] ∧ bField w ≠ 0))

/-- R59: each written operation in range has the word of the table, and one out of range has none. -/
def Obligations.AssemblerGivesTableWords : Prop :=
  (∀ d, d < 16 → assembleOp (.encode d) = .ok (BitVec.ofNat 24 (0x010000 + d))) ∧
  (∀ p, p < 256 → assembleOp (.withColon p) = .ok (BitVec.ofNat 24 (0x020000 + p))) ∧
  (∀ p, p < 256 → assembleOp (.withDecimal p) = .ok (BitVec.ofNat 24 (0x030000 + p))) ∧
  assembleOp .blank = .ok 0x040000 ∧
  (∀ s e, s < 256 → e < 256 → assembleOp (.shiftOut s e) = .ok (BitVec.ofNat 24 (0x050000 + s * 256 + e))) ∧
  assembleOp .startRefresh = .ok 0x060000 ∧ assembleOp .takeRefresh = .ok 0x070000 ∧
  ∀ a : AsmOp, a.wf = false → assembleOp a = .error .outOfRange

/-! ### One step (60_exceptions.md) -/

/-- A step runs the decoded operation: where the turn is the host's, `step` is `exec` of what the waiting word decodes
to, the word taken off and the turn counted against the timer. Counting changes `fireIn` alone, and nothing before
the timer runs. A running timer's next firing is as far away as its countdown says, or as the number still to be drawn says. -/
def Obligations.StepRunsTheDecodedOperation : Prop :=
  (∀ (s : State) (w : OpWord) (ws : List OpWord) (i : Instr),
    s.isOpen → timerIsNext s = false → s.serK = none → s.pendingOps = w :: ws → decode w = .ok i →
      step s = exec i { countTurn s with pendingOps := ws }) ∧
  (∀ s : State, s.rfRun = false → timerIsNext s = false ∧ countTurn s = s) ∧
  (∀ (s : State) (n : Nat), s.isOpen → s.rfRun = true → turnsBeforeFire s = n →
    (timerIsNext s = true ↔ n = 0) ∧ countTurn s = { s with fireIn := some (n - 1) }) ∧
  (∀ s : State, (∀ n, s.fireIn = some n → turnsBeforeFire s = n) ∧
    (s.fireIn = none → turnsBeforeFire s = Config.fireGap s.draws))

/-- The other turns: the timer fires when it is next; a busy serializer writes; with nothing to do the block waits. -/
def Obligations.EveryTurnIsOneAgentsStep : Prop :=
  ∀ s : State, s.isOpen →
    (timerIsNext s = true → step s = .next { s with rfPend := true, fireIn := none, draws := s.draws + 1 }) ∧
    (∀ j, timerIsNext s = false → s.serK = some j → step s = .next (serializerStep j (countTurn s))) ∧
    (timerIsNext s = false → s.serK = none → s.pendingOps = [] → step s = .next (countTurn s))

/-- R118: once `FAULT` is set no agent has a step, and the state is no end of a run; reset clears it. -/
def Obligations.FaultStopsEveryAgent : Prop :=
  ∀ (s : State) (f : Fault), s.fault = some f →
    step s = .fault f ∧ (∀ i, exec i s = .fault f) ∧ (∀ w, issue w s = .fault f) ∧ fireEnabled s = false ∧
    (∀ k, runs (k + 1) s = .fault f) ∧ ¬ IsEnd s ∧ State.reset.fault = none

/-- R119: once `REFUSED` is 1 the block takes no step, and no operation and no run of it answers a next state. -/
def Obligations.RefusedMarkStopsEveryAgent : Prop :=
  ∀ s : State, s.fault = none → s.refused = true →
    step s = .refused .refusedMark ∧ (∀ i, exec i s = .refused .refusedMark) ∧
    (∀ k, runs (k + 1) s = .refused .refusedMark) ∧ ¬ IsEnd s

/-- R116: the host issuing an illegal word sets `FAULT` to it and writes nothing else of the block; the word is gone
from the waiting ones and nothing is returned. -/
def Obligations.IllegalWordRecordsFault : Prop :=
  ∀ (s : State) (w : OpWord) (ws : List OpWord),
    s.isOpen → timerIsNext s = false → s.serK = none → s.pendingOps = w :: ws → isIllegal w = true →
      step s = .next { countTurn s with pendingOps := ws, fault := some (.illegal w), returned := none }

/-- Once set, `FAULT` and `REFUSED` keep; and a step that sets `FAULT` is the host's, on an illegal word or on `encode` of a
digit above 9. -/
def Obligations.FaultComesOnlyFromTwoCauses : Prop :=
  ∀ s t : State, step s = .next t →
    t.refused = s.refused ∧
    (t.fault = none ∨
      (∃ w ws, turnOf s = .host w ws ∧ isIllegal w = true ∧ t.fault = some (.illegal w)) ∨
      (∃ w ws d, turnOf s = .host w ws ∧ decode w = .ok (.encode d) ∧ 9 < d.toNat ∧ t.fault = some (.digitRange d)))

/-- R23, R133: while a transfer is in progress the host does not move: no word is taken and no step answers a refusal. -/
def Obligations.BusySerializerHoldsHost : Prop :=
  ∀ s : State, s.isOpen → s.serK ≠ none → ∃ t, step s = .next t ∧ t.pendingOps = s.pendingOps ∧ nextOperation s = none

/-! ### The encoder (40_encoder.md) -/

/-- R62: the table's two source entries, and bit 7 set in every entry, whatever the free entries are. -/
def Obligations.SegTableMeetsItsConstraints : Prop := Config.SegTableOk Config.segTable

/-- R63: `encode d` hands back the table's entry, whose bit 7 is set, for a digit 0 to 9, and records `F_DIGIT_RANGE` with the digit for 10 to
15, handing back nothing; no other state is written. Its word is 0x010 and the digit. -/
def Obligations.EncodeMapsDigits : Prop :=
  ∀ (s : State) (d : Digit), s.isOpen →
    (d ≤ 9 → exec (.encode d) s = .next { s with returned := some (.pattern (Config.segTable d)) } ∧
      (Config.segTable d).getLsbD 7 = true) ∧
    (9 < d → exec (.encode d) s = .next { s with fault := some (.digitRange d), returned := none }) ∧
    exec (.encode 0) s = .next { s with returned := some (.pattern 0xC0) } ∧
    exec (.encode 9) s = .next { s with returned := some (.pattern 0x90) } ∧
    decode (packWord 0x01 0x00 (0#4 ++ d)) = .ok (.encode d)

/-- R64: `withColon p` hands back `p` with bit 7 cleared and bits 6 to 0 as they were, and writes no state. Its word is 0x0200 and `p`. -/
def Obligations.WithColonClearsBitSeven : Prop :=
  ∀ (s : State) (p : Byte), s.isOpen → ∃ q : Byte,
    exec (.withColon p) s = .next { s with returned := some (.pattern q) } ∧ q = p &&& 0x7F ∧
    q.getLsbD 7 = false ∧ (∀ k, k < 7 → q.getLsbD k = p.getLsbD k) ∧ (p.getLsbD 7 = false → q = p) ∧
    exec (.withColon q) s = .next { s with returned := some (.pattern q) } ∧
    decode (packWord 0x02 0x00 p) = .ok (.withColon p)

/-- R65: `withDecimal p` does the same. Its word is 0x0300 and `p`. -/
def Obligations.WithDecimalClearsBitSeven : Prop :=
  ∀ (s : State) (p : Byte), s.isOpen → ∃ q : Byte,
    exec (.withDecimal p) s = .next { s with returned := some (.pattern q) } ∧ q = p &&& 0x7F ∧
    q.getLsbD 7 = false ∧ (∀ k, k < 7 → q.getLsbD k = p.getLsbD k) ∧ (p.getLsbD 7 = false → q = p) ∧
    exec (.withColon p) s = exec (.withDecimal p) s ∧ decode (packWord 0x03 0x00 p) = .ok (.withDecimal p)

/-- R69: the indicator on a digit's pattern differs from the pattern in exactly bit 7, for every table R62 allows. -/
def Obligations.IndicatorOnDigitFlipsBitSeven : Prop :=
  ∀ (T : Digit → Byte) (d : Digit) (p : Byte), Config.SegTableOk T → digitStageWith T d = some p →
    (indicatorStage p).getLsbD 7 = false ∧ p.getLsbD 7 = true ∧ indicatorStage p ^^^ p = 0x80

/-- R66: `blank` hands back 0xFF and writes no state. -/
def Obligations.BlankGivesAllOff : Prop :=
  ∀ s : State, s.isOpen → exec .blank s = .next { s with returned := some (.pattern 0xFF) }

/-- The encoder's four operations (R67): each completes in every open state, whatever the timer and the serializer are doing.
The frame, and independence of the state: a next state differs from the state before in the return port and, for
`encode` of 10 to 15, in `FAULT`; and two states are handed back the same. -/
def Obligations.EncoderOperationsAreStateless : Prop :=
  ∀ (i : Instr), ((∃ d, i = .encode d) ∨ (∃ p, i = .withColon p) ∨ (∃ p, i = .withDecimal p) ∨ i = .blank) →
    (∀ s : State, s.isOpen → ∃ t, exec i s = .next t) ∧
    ∀ s t s' t' : State, exec i s = .next t → exec i s' = .next t' →
      t = { s with returned := t.returned, fault := t.fault } ∧
      ((∀ d, i = .encode d → d ≤ 9) → t.fault = s.fault) ∧
      t.returned = t'.returned ∧ t.fault = t'.fault

/-! ### The serializer (41_serializer.md) -/

/-- R37, R38: the data writes of a call are `segments` bit 7 to bit 0, then `digitSelect` bit 7 to bit 0. -/
def Obligations.BytesGoOutMsbFirst : Prop :=
  ∀ seg sel : Byte,
    ((writes seg sel).filter fun w => w.pin = .data).map PinWrite.level =
      ([7, 6, 5, 4, 3, 2, 1, 0].map fun k => seg.getLsbD k) ++ ([7, 6, 5, 4, 3, 2, 1, 0].map fun k => sel.getLsbD k)

/-- R72: the 50 writes of a call, in order. -/
def Obligations.FiftyWritesInOrder : Prop :=
  ∀ seg sel : Byte, (writes seg sel).length = 50 ∧ (writes seg sel)[0]? = some ⟨.latch, false⟩ ∧
    (∀ i, i < 16 →
      (writes seg sel)[1 + 3 * i]? = some ⟨.data, (seg ++ sel : BitVec 16).getLsbD (15 - i)⟩ ∧
      (writes seg sel)[2 + 3 * i]? = some ⟨.clock, false⟩ ∧
      (writes seg sel)[3 + 3 * i]? = some ⟨.clock, true⟩) ∧
    (writes seg sel)[49]? = some ⟨.latch, true⟩

/-- R78: 2 writes to the latch, 16 to data, 32 to the clock; 16 rising clock edges and 1 rising latch edge, whatever the
levels were before the call. -/
def Obligations.WriteAndEdgeCounts : Prop :=
  ∀ seg sel : Byte,
    writeCount .latch seg sel = 2 ∧ writeCount .data seg sel = 16 ∧ writeCount .clock seg sel = 32 ∧
    ∀ level : Option Bool, risingEdges .clock level (writes seg sel) = 16 ∧ risingEdges .latch level (writes seg sel) = 1

/-- R76: the latch is low after `W[0]` to `W[48]`; every clock write lies in that span; the only `LATCH <- 1` is the last write. -/
def Obligations.LatchRisesLast : Prop :=
  ∀ (seg sel : Byte) (s : State),
    (∀ n, 1 ≤ n → n ≤ 49 → (serializerTurns n (startTransfer seg sel s)).latch = .lo) ∧
    ∀ j, j < 50 →
      ((writeAt seg sel j).pin = .clock → 0 < j ∧ j < 49) ∧
      ((writeAt seg sel j).pin = .latch → (writeAt seg sel j).level = true → j = 49) ∧
      writeAt seg sel 49 = ⟨.latch, true⟩

/-- R75: when `CLOCK` rises at `W[3+3i]`, `DATA` holds `stream[i]` and `CLOCK` was low, from whatever state the call was issued. -/
def Obligations.DataIsSetBeforeThePulse : Prop :=
  ∀ (seg sel : Byte) (s : State) (i : Nat), i < 16 →
    (serializerTurns (3 + 3 * i) (startTransfer seg sel s)).data = .ofBit ((seg ++ sel : BitVec 16).getLsbD (15 - i)) ∧
    (serializerTurns (3 + 3 * i) (startTransfer seg sel s)).clock = .lo ∧
    (serializerTurns (4 + 3 * i) (startTransfer seg sel s)).clock = .hi

/-- R79: what a write to `CLOCK` does to the shift stage. From `Unknown` it is an edge or not by the free value
`Config.clockEdgeFromUnknown`. -/
def Obligations.ClockEdgeShifts : Prop :=
  ∀ (s : State) (b : Bool),
    (driveClock b s).clock = (if b then .hi else .lo) ∧
    (b = true → s.clock = .lo →
      (driveClock b s).srShift[0] = s.data.bit? ∧
      ∀ k, (h : k < 15) → (driveClock b s).srShift[k + 1] = s.srShift[k]) ∧
    ((b = false ∨ s.clock = .hi) → (driveClock b s).srShift = s.srShift) ∧
    (b = true → s.clock = .unknown →
      (driveClock b s).srShift = s.srShift ∨ (driveClock b s).srShift = shiftIn s.srShift s.data.bit?) ∧
    (driveClock b s).srOut = s.srOut

/-- R80: a write to `LATCH` copies the shift stage to the outputs at a rising edge, and only there. From `Unknown` it does or not
by the free value `Config.latchEdgeFromUnknown`. No other pin's write changes `SR_OUT`. -/
def Obligations.LatchEdgeCommits : Prop :=
  ∀ (s : State) (b : Bool),
    (b = true → s.latch = .lo → (driveLatch b s).srOut = s.srShift) ∧
    ((b = false ∨ s.latch = .hi) → (driveLatch b s).srOut = s.srOut) ∧
    (b = true → s.latch = .unknown → (driveLatch b s).srOut = s.srOut ∨ (driveLatch b s).srOut = s.srShift) ∧
    (driveLatch b s).srShift = s.srShift ∧ (driveClock b s).srOut = s.srOut ∧ (driveData b s).srOut = s.srOut

/-- R73, R77, R81: `shiftOut` is accepted for every operand in every open state with an idle serializer, whatever the timer is doing;
and the 50 serializer steps after it leave `SR_SHIFT = SR_OUT = s : e`, the pins at Hi, Hi and `e[0]`, the serializer idle,
and everything else as it was, from whatever pins and stages. The premise of the second part leaves 50 turns to the
serializer; for every other order of turns see `InterleavedCallIsAtomic` and `LastWriteCommitsBothBytes`. -/
def Obligations.ShiftOutSendsBothBytes : Prop :=
  ∀ (seg sel : Byte) (s : State), s.isOpen → s.serK = none →
    exec (.shiftOut seg sel) s = .next { s with serSeg := seg, serSel := sel, serK := some 0, returned := none } ∧
    ∀ f, LeavesTurns 50 s f →
    runs 50 { s with serSeg := seg, serSel := sel, serK := some 0, returned := none } =
      .next { s with
        latch := .hi, clock := .hi, data := .ofBit (sel.getLsbD 0), serSeg := seg, serSel := sel, serK := none,
        srShift := stageOf (seg ++ sel), srOut := stageOf (seg ++ sel), returned := some .noValue, fireIn := f }

/-- R84: every order of one call's 50 writes and any number of fires reaches the state of the atomic call with the same
fires all placed before it. -/
def Obligations.InterleavedCallIsAtomic : Prop :=
  ∀ (seg sel : Byte) (s : State) (ts : List CallTurn), ts.count .write = 50 →
    callTurns ts (startTransfer seg sel s) = wholeCall seg sel (afterFires (ts.count .fire) s)

/-- R42, R82: the same call again makes the same writes and leaves the state as the first left it. -/
def Obligations.RepeatedCallChangesNothing : Prop :=
  ∀ (seg sel : Byte) (s : State), wholeCall seg sel (wholeCall seg sel s) = wholeCall seg sel s

/-- An invariant every step keeps: a transfer in progress stands where its index says (`Safety.SerializerInv`). -/
def Obligations.StepKeepsSerializerInv : Prop :=
  ∀ s t : State, SerializerInv s → step s = .next t → SerializerInv t

/-- The serializer's invariant holds at reset. -/
def Obligations.ResetMeetsSerializerInv : Prop := SerializerInv State.reset

/-- R41, R80: the outputs change only in the serializer's last write, and then to the shift stage. -/
def Obligations.OutputsChangeOnlyAtCommit : Prop :=
  ∀ s t : State, step s = .next t → t.srOut ≠ s.srOut → turnOf s = .serializer 49 ∧ t.srOut = s.srShift

/-- R81, for every order of turns: in a state of the invariant, the last write commits both bytes together. -/
def Obligations.LastWriteCommitsBothBytes : Prop :=
  ∀ s : State, s.isOpen → SerializerInv s → turnOf s = .serializer 49 → ∃ t, step s = .next t ∧
    t.srOut = stageOf (s.serSeg ++ s.serSel) ∧ t.srShift = stageOf (s.serSeg ++ s.serSel) ∧
    t.latch = .hi ∧ t.clock = .hi ∧ t.data = .ofBit (s.serSel.getLsbD 0) ∧ t.serK = none ∧ t.returned = some .noValue

/-- R20: only the serializer writes the pins; the timer and the host's operations never do. -/
def Obligations.OnlySerializerWritesPins : Prop :=
  ∀ s t : State, step s = .next t →
    (t.latch ≠ s.latch ∨ t.clock ≠ s.clock ∨ t.data ≠ s.data ∨ t.srShift ≠ s.srShift) → ∃ j, turnOf s = .serializer j

/-- The frame of a serializer step (R42, R74): it leaves the flags, the operands, the fault and refusal marks and the
waiting words, and moves the index by one. -/
def Obligations.SerializerStepFrame : Prop :=
  ∀ (s t : State) (j : Fin 50), turnOf s = .serializer j → step s = .next t →
    t.rfRun = s.rfRun ∧ t.rfPend = s.rfPend ∧ t.serSeg = s.serSeg ∧ t.serSel = s.serSel ∧ t.fault = s.fault ∧
    t.refused = s.refused ∧ t.pendingOps = s.pendingOps ∧
    (j.val < 49 → t.serK.map Fin.val = some (j.val + 1) ∧ t.returned = s.returned) ∧ (j.val = 49 → t.serK = none)

/-- The model's choice (log entry 6; R73 says the case does not arise): `shiftOut` performed while a transfer is in progress is
refused by name. -/
def Obligations.ShiftOutWhileBusyIsRefused : Prop :=
  ∀ (seg sel : Byte) (s : State) (j : Fin 50), s.isOpen → s.serK = some j →
    exec (.shiftOut seg sel) s = .refused .serializerBusy

/-! ### The refresh flag (42_refresh_flag.md) -/

/-- R87: `startRefresh` sets `RF_RUN` and nothing else; where `RF_RUN` is 1 already it changes no state of the block. Its word is
0x060000. -/
def Obligations.StartRefreshSetsRun : Prop :=
  ∀ s : State, s.isOpen → exec .startRefresh s = .next { s with rfRun := true, returned := some .noValue } ∧
    (s.rfRun = true → exec .startRefresh s = .next { s with returned := some .noValue }) ∧
    decode (packWord 0x06 0x00 0x00) = .ok .startRefresh

/-- R90: `takeRefresh` hands back the old `RF_PEND` and leaves 0; a second one with no fire between hands back 0. -/
def Obligations.TakeRefreshReadsAndClears : Prop :=
  ∀ s : State, s.isOpen → ∃ t,
    exec .takeRefresh s = .next t ∧ t = { s with rfPend := false, returned := some (.flag s.rfPend) } ∧
    exec .takeRefresh t = .next { s with rfPend := false, returned := some (.flag false) }

/-- R122: a fire and a `takeRefresh` both enabled may come in either order, by the number of turns the timer leaves. Fire first:
`takeRefresh` hands back 1. `takeRefresh` first: it hands back the old value and the fire after it leaves `RF_PEND = 1`. -/
def Obligations.FireAndTakeInEitherOrder : Prop :=
  ∀ (s : State) (ws : List OpWord), s.isOpen → s.rfRun = true → s.serK = none → s.pendingOps = 0x070000 :: ws →
    (turnsBeforeFire s = 0 → ∃ t, step s = .next t ∧ t.pendingOps = 0x070000 :: ws ∧
      exec .takeRefresh t = .next { t with rfPend := false, returned := some (.flag true) }) ∧
    (turnsBeforeFire s = 1 → ∃ t u, step s = .next t ∧ t.returned = some (.flag s.rfPend) ∧ t.rfPend = false ∧
      step t = .next u ∧ u.returned = some (.flag s.rfPend) ∧ u.rfPend = true)

/-- R89: a fire while a refresh is pending is lost; any number `n` of fires with no `takeRefresh` between give at most one pending
refresh: the first `takeRefresh` after them hands back whether there is one, the second 0. -/
def Obligations.FiresCoalesce : Prop :=
  ∀ (n : Nat) (s : State), s.isOpen → s.rfRun = true →
    (s.rfPend = true → fire s = s) ∧ ∃ t,
    exec .takeRefresh (afterFires n s) = .next t ∧
    t = { s with rfPend := false, returned := some (.flag (s.rfPend || decide (0 < n))) } ∧
    exec .takeRefresh t = .next { t with returned := some (.flag false) }

/-- R86: the fire step is the only step that sets `RF_PEND`, and `takeRefresh` the only one that clears it. -/
def Obligations.WritersOfPending : Prop :=
  ∀ s t : State, step s = .next t →
    (s.rfPend = false → t.rfPend = true → turnOf s = .timer) ∧
    (s.rfPend = true → t.rfPend = false → nextOperation s = some .takeRefresh) ∧
    State.reset.rfPend = false

/-- R26, R92: only `startRefresh` sets `RF_RUN`, and nothing clears it. -/
def Obligations.TimerIsNeverStopped : Prop :=
  ∀ s t : State, step s = .next t →
    (s.rfRun = true → t.rfRun = true ∧ (t.fault = none → fireEnabled t = true)) ∧
    (s.rfRun = false → t.rfRun = true → nextOperation s = some .startRefresh)

/-- R93's fairness, step by step: a running timer whose next firing is `n` turns away fires in the `n+1`-th step from there,
unless the block stops; and with no operation waiting it does not stop. The gap, drawn or still to be drawn, is a free
value. Driven by the reference host, whatever that samples, the timer's turn comes within one turn more (the slow tick may
be due at once with it). -/
def Obligations.TimerFiresWhenItsGapEnds : Prop :=
  (∀ (n : Nat) (s : State), s.isOpen → s.rfRun = true → turnsBeforeFire s = n →
    (∀ t, runs (n + 1) s = .next t → t.rfPend = true ∧ t.fireIn = none) ∧
    (s.pendingOps = [] → ∃ t, runs (n + 1) s = .next t)) ∧
  ∀ (n : Nat) (σ : System) (inps : List Inputs), HostInv σ → σ.block.rfRun = true → turnsBeforeFire σ.block = n →
    inps.length = n + 1 →
      ∃ k τ, k ≤ n + 1 ∧ systemRun (inps.take k) σ = .next τ ∧ sysTurnOf τ = .block ∧ turnOf τ.block = .timer

/-- R90, R130: `RF_PEND` stays 0 until `RF_RUN` is 1: every step keeps it so. -/
def Obligations.StepKeepsQuietBeforeStart : Prop :=
  ∀ s t : State, QuietBeforeStart s → step s = .next t → QuietBeforeStart t

/-- Before `startRefresh`, `takeRefresh` hands back 0 and no turn is the timer's. -/
def Obligations.NoRefreshBeforeStart : Prop :=
  QuietBeforeStart State.reset ∧
  ∀ s : State, s.isOpen → QuietBeforeStart s → s.rfRun = false →
    timerIsNext s = false ∧ exec .takeRefresh s = .next { s with returned := some (.flag false) }

/-- R95: over any run in which no `takeRefresh` is performed, from a state with `RF_PEND = 0`, the flag at the end is 1 exactly when at least
one fire has fallen in it; and the `takeRefresh` there hands it back. -/
def Obligations.TakeRefreshAnswersWhetherFired : Prop :=
  ∀ (k : Nat) (s t : State), runs k s = .next t → s.rfPend = false →
    (∀ j u, j < k → runs j s = .next u → nextOperation u ≠ some .takeRefresh) →
      ∃ b, (b = true ↔ ∃ j u, j < k ∧ runs j s = .next u ∧ turnOf u = .timer) ∧
        (t.isOpen → exec .takeRefresh t = .next { t with rfPend := false, returned := some (.flag b) })

/-! ### Reset (70_reset_and_hazards.md) -/

/-- R33, R129: the values the spec gives at reset. (`SER_SEG` and `SER_SEL` have none.) -/
def Obligations.ResetValues : Prop :=
  State.reset.latch = .unknown ∧ State.reset.clock = .unknown ∧ State.reset.data = .unknown ∧
  State.reset.serK = none ∧ State.reset.rfRun = false ∧ State.reset.rfPend = false ∧
  (∀ k : Fin 16, State.reset.srShift[k] = none ∧ State.reset.srOut[k] = none) ∧
  State.reset.fault = none ∧ State.reset.refused = false

/-- R130: after reset the block waits for the host: with no operation waiting a step changes nothing. -/
def Obligations.ResetWaitsForTheHost : Prop := step State.reset = .next State.reset

/-- R141: fires that fall after the last operation leave an end of a run an end, and change `RF_PEND` alone: it is 1 after at
least one where the timer runs, and as it was otherwise. -/
def Obligations.TrailingFiresKeepTheEnd : Prop :=
  ∀ (n : Nat) (s : State), IsEnd s →
    IsEnd (afterFires n s) ∧ afterFires n s = { s with rfPend := s.rfPend || (s.rfRun && decide (0 < n)) }

/-! ### The reference host (45_host_reference.md) -/

/-- R97: the slow tick adds 1 modulo 6000, from 5999 to 0, once INIT has started it, and writes no other cell. And its fairness in
the sense of R93, whatever the host samples: a started slow timer whose next tick is `n` turns away does not tick in the
next `n` turns, and ticks in the turn after them; the gap, drawn or still to be drawn, is a free value. -/
def Obligations.SlowTickWraps : Prop :=
  (∀ h : RefHost,
    (h.slowRun = true → (slowTick h).elapsed.val = (if h.elapsed.val = 5999 then 0 else h.elapsed.val + 1)) ∧
    (h.slowRun = false → slowTick h = h) ∧ slowTick h = { h with elapsed := (slowTick h).elapsed }) ∧
  ∀ (n : Nat) (σ : System) (inps : List Inputs), HostInv σ → σ.ref.slowRun = true → turnsBeforeTick σ = n → inps.length = n →
    ∃ τ, systemRun inps σ = .next τ ∧ τ.slowDraws = σ.slowDraws ∧ sysTurnOf τ = .slowTick ∧
      ∀ inp, ∃ υ, systemStep inp τ = .next υ ∧ υ.ref = slowTick τ.ref ∧ υ.slowDraws = τ.slowDraws + 1

/-- R102: the four patterns of `TIME` mode, for every table. -/
def Obligations.TimeModePatterns : Prop :=
  ∀ (T : Digit → Byte) (e : Fin 6000),
    planPattern T (planTime e 0) = some (T (BitVec.ofNat 4 (e.val / 60 / 10))) ∧
    planPattern T (planTime e 1) = some (T (BitVec.ofNat 4 (e.val / 60 % 10)) &&& 0x7F) ∧
    planPattern T (planTime e 2) = some (T (BitVec.ofNat 4 (e.val % 60 / 10))) ∧
    planPattern T (planTime e 3) = some (T (BitVec.ofNat 4 (e.val % 60 % 10)))

/-- R103, R104: the four patterns of `VOLTAGE` mode, for every table and every analog reading; centivolts are clamped to 999. Away
from the readings 0.5 and 1.0 the product is the free value `Config.cvRawElsewhere`. -/
def Obligations.VoltageModePatterns : Prop :=
  ∀ (T : Digit → Byte) (a : Reading),
    centivolts a ≤ 999 ∧
    planPattern T (planVoltage (centivolts a) 0) = some (T (BitVec.ofNat 4 (centivolts a / 100)) &&& 0x7F) ∧
    planPattern T (planVoltage (centivolts a) 1) = some (T (BitVec.ofNat 4 (centivolts a % 100 / 10))) ∧
    planPattern T (planVoltage (centivolts a) 2) = some (T (BitVec.ofNat 4 (centivolts a % 100 % 10))) ∧
    planPattern T (planVoltage (centivolts a) 3) = some 0xFF ∧
    (a.val = 1 / 2 → centivolts a = 165) ∧ (a.val = 1 → centivolts a = 330)

/-- R111: the host never gives `encode` a digit outside 0 to 9. -/
def Obligations.HostDigitsAreInRange : Prop :=
  ∀ (mode : DisplayMode) (e : Fin 6000) (a : Reading) (i : Fin 4) (n : Nat),
    (digitPlan mode e a i).number? = some n → n ≤ 9

/-- R107: a reset happens on a high to low transition alone; holding the button low gives exactly one. -/
def Obligations.ResetButtonActsOnTheEdge : Prop :=
  ∀ h : RefHost,
    (h.prevResetHigh = true → (sampleReset false h).elapsed = 0) ∧
    (h.prevResetHigh = false → (sampleReset false h).elapsed = h.elapsed) ∧
    (sampleReset true h).elapsed = h.elapsed ∧
    (∀ high, (sampleReset high h).prevResetHigh = high) ∧
    RefHost.reset.prevResetHigh = true

/-- R108: `VOLTAGE` whenever the mode button reads low, `TIME` otherwise. -/
def Obligations.ModeFollowsTheButton : Prop :=
  ∀ modeHigh : Bool, (modeOf modeHigh = .voltage ↔ modeHigh = false) ∧ (modeOf modeHigh = .time ↔ modeHigh = true)

/-- R101, R106, R113: once a refresh has its pattern `p`, the host issues `shiftOut` with `p` and the active digit's enable byte; when
that has completed it moves to the next digit; from each digit on, four refreshes use each of the four once, in turn. -/
def Obligations.RefreshesGoRoundRobin : Prop :=
  ∀ (h : RefHost) (p : Byte) (inp : Inputs) (ret : Option ReturnValue),
    (h.phase = .patterned ∨ h.phase = .encoded .off →
      hostStep inp (some (.pattern p)) h =
        (some (.shiftOut p (Config.digitEnable h.activeDigit)), { h with phase := .shifting })) ∧
    (h.phase = .shifting → hostStep inp ret h = (none, { advanceDigit h with phase := .loop })) ∧
    (advanceDigit h).activeDigit.val = (h.activeDigit.val + 1) % 4 ∧
    (∀ i : Fin 4, ∃ n, n < 4 ∧ (advanceDigit^[n] h).activeDigit = i) ∧ advanceDigit^[4] h = h

/-- R101: one whole refresh, from the answer 1 of `takeRefresh`: the block ends with the digit's pattern and its enable byte on the outputs,
no fault and its flag as it was, and the host at the head of its loop with the next digit active. The plan is made from what
the host samples at the first turn; what it would sample later does not matter. The premise leaves the turns to the host
and the block; how they take them is the model's (log entries 15 and 23). -/
def Obligations.RefreshDrivesOneDigit : Prop :=
  ∀ (inp : Inputs) (inps : List Inputs) (mode : DisplayMode) (σ : System) (plan : DigitPlan),
    σ.block.isOpen → σ.block.serK = none → σ.block.pendingOps = [] → σ.block.returned = some (.flag true) →
    σ.ref.phase = .took mode → plan = digitPlan mode σ.ref.elapsed inp.analog σ.ref.activeDigit →
    TimersLeave (refreshTurns plan) σ → inps.length + 1 = refreshTurns plan →
      ∃ τ p, planPattern Config.segTable plan = some p ∧ systemRun (inp :: inps) σ = .next τ ∧
        τ.block.srOut = stageOf (p ++ Config.digitEnable σ.ref.activeDigit) ∧
        τ.block.fault = none ∧ τ.block.rfPend = σ.block.rfPend ∧
        τ.ref = { advanceDigit σ.ref with phase := .loop }

/-- R111, R135: with the reference host, whatever it samples and in whatever order the free gaps let the agents move, the block never faults or
refuses, every turn completes, and every `shiftOut` issued carries a byte of `DIGIT_ENABLE`, which asserts exactly one
digit-enable line. -/
def Obligations.ReferenceHostNeverFaults : Prop :=
  ∀ (inp : Inputs) (σ : System), HostInv σ → ∃ τ, systemStep inp σ = .next τ ∧ HostInv τ

/-- The reference host's invariant holds at reset. -/
def Obligations.ResetMeetsHostInv : Prop := HostInv System.reset
end

