-- ==== Sys2Proof/Laws/Decode.lean ====
section
/-!
SUPPORT. The operation word taken apart and put together: its fields, and what an accepted word says.
-/

namespace Sys2Proof

/-- Which bit of which field stands at bit `k` of a word (R48). -/
theorem packWord_getLsbD (op a b : Byte) (k : Nat) :
    (packWord op a b).getLsbD k =
      if k < 8 then b.getLsbD k else if k < 16 then a.getLsbD (k - 8) else op.getLsbD (k - 16) := by
  have h : (packWord op a b).getLsbD k = if k < 8 then b.getLsbD k else (op ++ a).getLsbD (k - 8) :=
    BitVec.getLsbD_append
  rw [h, BitVec.getLsbD_append]
  split
  · rfl
  · have e : k - 8 - 8 = k - 16 := by omega
    by_cases hk : k < 16
    · have : k - 8 < 8 := by omega
      simp [hk, this]
    · have : ¬ k - 8 < 8 := by omega
      simp [hk, this, e]

@[simp] theorem opField_packWord (op a b : Byte) : opField (packWord op a b) = op := by
  refine BitVec.eq_of_getLsbD_eq fun k hk => ?_
  have h1 : ¬ 16 + k < 8 := by omega
  have h2 : ¬ 16 + k < 16 := by omega
  simp [opField, packWord_getLsbD, hk, h1, h2]

@[simp] theorem aField_packWord (op a b : Byte) : aField (packWord op a b) = a := by
  refine BitVec.eq_of_getLsbD_eq fun k hk => ?_
  have h1 : ¬ 8 + k < 8 := by omega
  have h2 : 8 + k < 16 := by omega
  simp [aField, packWord_getLsbD, hk, h1, h2]

@[simp] theorem bField_packWord (op a b : Byte) : bField (packWord op a b) = b := by
  refine BitVec.eq_of_getLsbD_eq fun k hk => ?_
  simp [bField, packWord_getLsbD, hk]

/-- A word is its three fields (R48). -/
theorem packWord_fields (w : OpWord) : packWord (opField w) (aField w) (bField w) = w := by
  refine BitVec.eq_of_getLsbD_eq fun k hk => ?_
  rw [packWord_getLsbD]
  split
  · simp [bField, *]
  · split
    · have h1 : k - 8 < 8 := by omega
      have h2 : 8 + (k - 8) = k := by omega
      simp [aField, h1, h2]
    · have h1 : k - 16 < 8 := by omega
      have h2 : 16 + (k - 16) = k := by omega
      simp [opField, h1, h2]

/-- The value of a word: `0xOOAABB` (R48). -/
theorem packWord_toNat (op a b : Byte) : (packWord op a b).toNat = op.toNat * 65536 + a.toNat * 256 + b.toNat := by
  have h : (packWord op a b).toNat = (op ++ a).toNat <<< 8 ||| b.toNat := BitVec.toNat_append ..
  rw [h, BitVec.toNat_append, ← Nat.shiftLeft_add_eq_or_of_lt a.isLt, ← Nat.shiftLeft_add_eq_or_of_lt b.isLt]
  simp only [Nat.shiftLeft_eq]; omega

theorem acceptIf_eq_ok {op : Byte} {z : Bool} {i j : Instr} : acceptIf op z i = .ok j ↔ z = true ∧ i = j := by
  unfold acceptIf; cases z <;> simp

end Sys2Proof
end

