-- ==== Sys2Proof/Laws/State.lean ====
section
/-!
SUPPORT. One lemma per field per update of the state, so that no proof unfolds a record update.
-/

namespace Sys2Proof.Machine

/-- Two states with the same fields are the same. -/
theorem State.eq_of_fields {a b : State}
    (h0 : a.latch = b.latch)
    (h1 : a.clock = b.clock)
    (h2 : a.data = b.data)
    (h3 : a.serK = b.serK)
    (h4 : a.serSeg = b.serSeg)
    (h5 : a.serSel = b.serSel)
    (h6 : a.rfRun = b.rfRun)
    (h7 : a.rfPend = b.rfPend)
    (h8 : a.srShift = b.srShift)
    (h9 : a.srOut = b.srOut)
    (h10 : a.fault = b.fault)
    (h11 : a.refused = b.refused)
    (h12 : a.pendingOps = b.pendingOps)
    (h13 : a.returned = b.returned)
    (h14 : a.fireIn = b.fireIn)
    (h15 : a.draws = b.draws) : a = b := by
  cases a; cases b; congr

/-! ### giveBack -/

@[simp] theorem giveBack_latch (v : ReturnValue) (s : State) : (giveBack v s).latch = s.latch := rfl

@[simp] theorem giveBack_clock (v : ReturnValue) (s : State) : (giveBack v s).clock = s.clock := rfl

@[simp] theorem giveBack_data (v : ReturnValue) (s : State) : (giveBack v s).data = s.data := rfl

@[simp] theorem giveBack_serK (v : ReturnValue) (s : State) : (giveBack v s).serK = s.serK := rfl

@[simp] theorem giveBack_serSeg (v : ReturnValue) (s : State) : (giveBack v s).serSeg = s.serSeg := rfl

@[simp] theorem giveBack_serSel (v : ReturnValue) (s : State) : (giveBack v s).serSel = s.serSel := rfl

@[simp] theorem giveBack_rfRun (v : ReturnValue) (s : State) : (giveBack v s).rfRun = s.rfRun := rfl

@[simp] theorem giveBack_rfPend (v : ReturnValue) (s : State) : (giveBack v s).rfPend = s.rfPend := rfl

@[simp] theorem giveBack_srShift (v : ReturnValue) (s : State) : (giveBack v s).srShift = s.srShift := rfl

@[simp] theorem giveBack_srOut (v : ReturnValue) (s : State) : (giveBack v s).srOut = s.srOut := rfl

@[simp] theorem giveBack_fault (v : ReturnValue) (s : State) : (giveBack v s).fault = s.fault := rfl

@[simp] theorem giveBack_refused (v : ReturnValue) (s : State) : (giveBack v s).refused = s.refused := rfl

@[simp] theorem giveBack_pendingOps (v : ReturnValue) (s : State) : (giveBack v s).pendingOps = s.pendingOps := rfl

@[simp] theorem giveBack_returned (v : ReturnValue) (s : State) : (giveBack v s).returned = some v := rfl

@[simp] theorem giveBack_fireIn (v : ReturnValue) (s : State) : (giveBack v s).fireIn = s.fireIn := rfl

@[simp] theorem giveBack_draws (v : ReturnValue) (s : State) : (giveBack v s).draws = s.draws := rfl

/-! ### raiseFault -/

@[simp] theorem raiseFault_latch (f : Fault) (s : State) : (raiseFault f s).latch = s.latch := rfl

@[simp] theorem raiseFault_clock (f : Fault) (s : State) : (raiseFault f s).clock = s.clock := rfl

@[simp] theorem raiseFault_data (f : Fault) (s : State) : (raiseFault f s).data = s.data := rfl

@[simp] theorem raiseFault_serK (f : Fault) (s : State) : (raiseFault f s).serK = s.serK := rfl

@[simp] theorem raiseFault_serSeg (f : Fault) (s : State) : (raiseFault f s).serSeg = s.serSeg := rfl

@[simp] theorem raiseFault_serSel (f : Fault) (s : State) : (raiseFault f s).serSel = s.serSel := rfl

@[simp] theorem raiseFault_rfRun (f : Fault) (s : State) : (raiseFault f s).rfRun = s.rfRun := rfl

@[simp] theorem raiseFault_rfPend (f : Fault) (s : State) : (raiseFault f s).rfPend = s.rfPend := rfl

@[simp] theorem raiseFault_srShift (f : Fault) (s : State) : (raiseFault f s).srShift = s.srShift := rfl

@[simp] theorem raiseFault_srOut (f : Fault) (s : State) : (raiseFault f s).srOut = s.srOut := rfl

@[simp] theorem raiseFault_fault (f : Fault) (s : State) : (raiseFault f s).fault = some f := rfl

@[simp] theorem raiseFault_refused (f : Fault) (s : State) : (raiseFault f s).refused = s.refused := rfl

@[simp] theorem raiseFault_pendingOps (f : Fault) (s : State) : (raiseFault f s).pendingOps = s.pendingOps := rfl

@[simp] theorem raiseFault_returned (f : Fault) (s : State) : (raiseFault f s).returned = none := rfl

@[simp] theorem raiseFault_fireIn (f : Fault) (s : State) : (raiseFault f s).fireIn = s.fireIn := rfl

@[simp] theorem raiseFault_draws (f : Fault) (s : State) : (raiseFault f s).draws = s.draws := rfl

/-! ### startTimer -/

@[simp] theorem startTimer_latch (s : State) : (startTimer s).latch = s.latch := rfl

@[simp] theorem startTimer_clock (s : State) : (startTimer s).clock = s.clock := rfl

@[simp] theorem startTimer_data (s : State) : (startTimer s).data = s.data := rfl

@[simp] theorem startTimer_serK (s : State) : (startTimer s).serK = s.serK := rfl

@[simp] theorem startTimer_serSeg (s : State) : (startTimer s).serSeg = s.serSeg := rfl

@[simp] theorem startTimer_serSel (s : State) : (startTimer s).serSel = s.serSel := rfl

@[simp] theorem startTimer_rfRun (s : State) : (startTimer s).rfRun = true := rfl

@[simp] theorem startTimer_rfPend (s : State) : (startTimer s).rfPend = s.rfPend := rfl

@[simp] theorem startTimer_srShift (s : State) : (startTimer s).srShift = s.srShift := rfl

@[simp] theorem startTimer_srOut (s : State) : (startTimer s).srOut = s.srOut := rfl

@[simp] theorem startTimer_fault (s : State) : (startTimer s).fault = s.fault := rfl

@[simp] theorem startTimer_refused (s : State) : (startTimer s).refused = s.refused := rfl

@[simp] theorem startTimer_pendingOps (s : State) : (startTimer s).pendingOps = s.pendingOps := rfl

@[simp] theorem startTimer_returned (s : State) : (startTimer s).returned = s.returned := rfl

@[simp] theorem startTimer_fireIn (s : State) : (startTimer s).fireIn = s.fireIn := rfl

@[simp] theorem startTimer_draws (s : State) : (startTimer s).draws = s.draws := rfl

/-! ### fire -/

@[simp] theorem fire_latch (s : State) : (fire s).latch = s.latch := rfl

@[simp] theorem fire_clock (s : State) : (fire s).clock = s.clock := rfl

@[simp] theorem fire_data (s : State) : (fire s).data = s.data := rfl

@[simp] theorem fire_serK (s : State) : (fire s).serK = s.serK := rfl

@[simp] theorem fire_serSeg (s : State) : (fire s).serSeg = s.serSeg := rfl

@[simp] theorem fire_serSel (s : State) : (fire s).serSel = s.serSel := rfl

@[simp] theorem fire_rfRun (s : State) : (fire s).rfRun = s.rfRun := rfl

@[simp] theorem fire_rfPend (s : State) : (fire s).rfPend = true := rfl

@[simp] theorem fire_srShift (s : State) : (fire s).srShift = s.srShift := rfl

@[simp] theorem fire_srOut (s : State) : (fire s).srOut = s.srOut := rfl

@[simp] theorem fire_fault (s : State) : (fire s).fault = s.fault := rfl

@[simp] theorem fire_refused (s : State) : (fire s).refused = s.refused := rfl

@[simp] theorem fire_pendingOps (s : State) : (fire s).pendingOps = s.pendingOps := rfl

@[simp] theorem fire_returned (s : State) : (fire s).returned = s.returned := rfl

@[simp] theorem fire_fireIn (s : State) : (fire s).fireIn = s.fireIn := rfl

@[simp] theorem fire_draws (s : State) : (fire s).draws = s.draws := rfl

/-! ### clearPending -/

@[simp] theorem clearPending_latch (s : State) : (clearPending s).latch = s.latch := rfl

@[simp] theorem clearPending_clock (s : State) : (clearPending s).clock = s.clock := rfl

@[simp] theorem clearPending_data (s : State) : (clearPending s).data = s.data := rfl

@[simp] theorem clearPending_serK (s : State) : (clearPending s).serK = s.serK := rfl

@[simp] theorem clearPending_serSeg (s : State) : (clearPending s).serSeg = s.serSeg := rfl

@[simp] theorem clearPending_serSel (s : State) : (clearPending s).serSel = s.serSel := rfl

@[simp] theorem clearPending_rfRun (s : State) : (clearPending s).rfRun = s.rfRun := rfl

@[simp] theorem clearPending_rfPend (s : State) : (clearPending s).rfPend = false := rfl

@[simp] theorem clearPending_srShift (s : State) : (clearPending s).srShift = s.srShift := rfl

@[simp] theorem clearPending_srOut (s : State) : (clearPending s).srOut = s.srOut := rfl

@[simp] theorem clearPending_fault (s : State) : (clearPending s).fault = s.fault := rfl

@[simp] theorem clearPending_refused (s : State) : (clearPending s).refused = s.refused := rfl

@[simp] theorem clearPending_pendingOps (s : State) : (clearPending s).pendingOps = s.pendingOps := rfl

@[simp] theorem clearPending_returned (s : State) : (clearPending s).returned = s.returned := rfl

@[simp] theorem clearPending_fireIn (s : State) : (clearPending s).fireIn = s.fireIn := rfl

@[simp] theorem clearPending_draws (s : State) : (clearPending s).draws = s.draws := rfl

/-! ### startTransfer -/

@[simp] theorem startTransfer_latch (seg sel : Byte) (s : State) : (startTransfer seg sel s).latch = s.latch := rfl

@[simp] theorem startTransfer_clock (seg sel : Byte) (s : State) : (startTransfer seg sel s).clock = s.clock := rfl

@[simp] theorem startTransfer_data (seg sel : Byte) (s : State) : (startTransfer seg sel s).data = s.data := rfl

@[simp] theorem startTransfer_serK (seg sel : Byte) (s : State) : (startTransfer seg sel s).serK = some 0 := rfl

@[simp] theorem startTransfer_serSeg (seg sel : Byte) (s : State) : (startTransfer seg sel s).serSeg = seg := rfl

@[simp] theorem startTransfer_serSel (seg sel : Byte) (s : State) : (startTransfer seg sel s).serSel = sel := rfl

@[simp] theorem startTransfer_rfRun (seg sel : Byte) (s : State) : (startTransfer seg sel s).rfRun = s.rfRun := rfl

@[simp] theorem startTransfer_rfPend (seg sel : Byte) (s : State) : (startTransfer seg sel s).rfPend = s.rfPend := rfl

@[simp] theorem startTransfer_srShift (seg sel : Byte) (s : State) : (startTransfer seg sel s).srShift = s.srShift := rfl

@[simp] theorem startTransfer_srOut (seg sel : Byte) (s : State) : (startTransfer seg sel s).srOut = s.srOut := rfl

@[simp] theorem startTransfer_fault (seg sel : Byte) (s : State) : (startTransfer seg sel s).fault = s.fault := rfl

@[simp] theorem startTransfer_refused (seg sel : Byte) (s : State) : (startTransfer seg sel s).refused = s.refused := rfl

@[simp] theorem startTransfer_pendingOps (seg sel : Byte) (s : State) : (startTransfer seg sel s).pendingOps = s.pendingOps := rfl

@[simp] theorem startTransfer_returned (seg sel : Byte) (s : State) : (startTransfer seg sel s).returned = none := rfl

@[simp] theorem startTransfer_fireIn (seg sel : Byte) (s : State) : (startTransfer seg sel s).fireIn = s.fireIn := rfl

@[simp] theorem startTransfer_draws (seg sel : Byte) (s : State) : (startTransfer seg sel s).draws = s.draws := rfl

/-! ### driveData -/

@[simp] theorem driveData_latch (b : Bool) (s : State) : (driveData b s).latch = s.latch := rfl

@[simp] theorem driveData_clock (b : Bool) (s : State) : (driveData b s).clock = s.clock := rfl

@[simp] theorem driveData_data (b : Bool) (s : State) : (driveData b s).data = .ofBit b := rfl

@[simp] theorem driveData_serK (b : Bool) (s : State) : (driveData b s).serK = s.serK := rfl

@[simp] theorem driveData_serSeg (b : Bool) (s : State) : (driveData b s).serSeg = s.serSeg := rfl

@[simp] theorem driveData_serSel (b : Bool) (s : State) : (driveData b s).serSel = s.serSel := rfl

@[simp] theorem driveData_rfRun (b : Bool) (s : State) : (driveData b s).rfRun = s.rfRun := rfl

@[simp] theorem driveData_rfPend (b : Bool) (s : State) : (driveData b s).rfPend = s.rfPend := rfl

@[simp] theorem driveData_srShift (b : Bool) (s : State) : (driveData b s).srShift = s.srShift := rfl

@[simp] theorem driveData_srOut (b : Bool) (s : State) : (driveData b s).srOut = s.srOut := rfl

@[simp] theorem driveData_fault (b : Bool) (s : State) : (driveData b s).fault = s.fault := rfl

@[simp] theorem driveData_refused (b : Bool) (s : State) : (driveData b s).refused = s.refused := rfl

@[simp] theorem driveData_pendingOps (b : Bool) (s : State) : (driveData b s).pendingOps = s.pendingOps := rfl

@[simp] theorem driveData_returned (b : Bool) (s : State) : (driveData b s).returned = s.returned := rfl

@[simp] theorem driveData_fireIn (b : Bool) (s : State) : (driveData b s).fireIn = s.fireIn := rfl

@[simp] theorem driveData_draws (b : Bool) (s : State) : (driveData b s).draws = s.draws := rfl

/-! ### driveClock -/

@[simp] theorem driveClock_latch (b : Bool) (s : State) : (driveClock b s).latch = s.latch := rfl

@[simp] theorem driveClock_clock (b : Bool) (s : State) : (driveClock b s).clock = .ofBit b := rfl

@[simp] theorem driveClock_data (b : Bool) (s : State) : (driveClock b s).data = s.data := rfl

@[simp] theorem driveClock_serK (b : Bool) (s : State) : (driveClock b s).serK = s.serK := rfl

@[simp] theorem driveClock_serSeg (b : Bool) (s : State) : (driveClock b s).serSeg = s.serSeg := rfl

@[simp] theorem driveClock_serSel (b : Bool) (s : State) : (driveClock b s).serSel = s.serSel := rfl

@[simp] theorem driveClock_rfRun (b : Bool) (s : State) : (driveClock b s).rfRun = s.rfRun := rfl

@[simp] theorem driveClock_rfPend (b : Bool) (s : State) : (driveClock b s).rfPend = s.rfPend := rfl

@[simp] theorem driveClock_srShift (b : Bool) (s : State) :
    (driveClock b s).srShift = if rising s.clock b (Config.clockEdgeFromUnknown s.draws) then shiftIn s.srShift s.data.bit? else s.srShift := rfl

@[simp] theorem driveClock_srOut (b : Bool) (s : State) : (driveClock b s).srOut = s.srOut := rfl

@[simp] theorem driveClock_fault (b : Bool) (s : State) : (driveClock b s).fault = s.fault := rfl

@[simp] theorem driveClock_refused (b : Bool) (s : State) : (driveClock b s).refused = s.refused := rfl

@[simp] theorem driveClock_pendingOps (b : Bool) (s : State) : (driveClock b s).pendingOps = s.pendingOps := rfl

@[simp] theorem driveClock_returned (b : Bool) (s : State) : (driveClock b s).returned = s.returned := rfl

@[simp] theorem driveClock_fireIn (b : Bool) (s : State) : (driveClock b s).fireIn = s.fireIn := rfl

@[simp] theorem driveClock_draws (b : Bool) (s : State) :
    (driveClock b s).draws = drawsAfter s.clock b s.draws := rfl

/-! ### driveLatch -/

@[simp] theorem driveLatch_latch (b : Bool) (s : State) : (driveLatch b s).latch = .ofBit b := rfl

@[simp] theorem driveLatch_clock (b : Bool) (s : State) : (driveLatch b s).clock = s.clock := rfl

@[simp] theorem driveLatch_data (b : Bool) (s : State) : (driveLatch b s).data = s.data := rfl

@[simp] theorem driveLatch_serK (b : Bool) (s : State) : (driveLatch b s).serK = s.serK := rfl

@[simp] theorem driveLatch_serSeg (b : Bool) (s : State) : (driveLatch b s).serSeg = s.serSeg := rfl

@[simp] theorem driveLatch_serSel (b : Bool) (s : State) : (driveLatch b s).serSel = s.serSel := rfl

@[simp] theorem driveLatch_rfRun (b : Bool) (s : State) : (driveLatch b s).rfRun = s.rfRun := rfl

@[simp] theorem driveLatch_rfPend (b : Bool) (s : State) : (driveLatch b s).rfPend = s.rfPend := rfl

@[simp] theorem driveLatch_srShift (b : Bool) (s : State) : (driveLatch b s).srShift = s.srShift := rfl

@[simp] theorem driveLatch_srOut (b : Bool) (s : State) :
    (driveLatch b s).srOut = if rising s.latch b (Config.latchEdgeFromUnknown s.draws) then s.srShift else s.srOut := rfl

@[simp] theorem driveLatch_fault (b : Bool) (s : State) : (driveLatch b s).fault = s.fault := rfl

@[simp] theorem driveLatch_refused (b : Bool) (s : State) : (driveLatch b s).refused = s.refused := rfl

@[simp] theorem driveLatch_pendingOps (b : Bool) (s : State) : (driveLatch b s).pendingOps = s.pendingOps := rfl

@[simp] theorem driveLatch_returned (b : Bool) (s : State) : (driveLatch b s).returned = s.returned := rfl

@[simp] theorem driveLatch_fireIn (b : Bool) (s : State) : (driveLatch b s).fireIn = s.fireIn := rfl

@[simp] theorem driveLatch_draws (b : Bool) (s : State) :
    (driveLatch b s).draws = drawsAfter s.latch b s.draws := rfl

/-! ### timerTurn -/

@[simp] theorem timerTurn_latch (s : State) : (timerTurn s).latch = s.latch := rfl

@[simp] theorem timerTurn_clock (s : State) : (timerTurn s).clock = s.clock := rfl

@[simp] theorem timerTurn_data (s : State) : (timerTurn s).data = s.data := rfl

@[simp] theorem timerTurn_serK (s : State) : (timerTurn s).serK = s.serK := rfl

@[simp] theorem timerTurn_serSeg (s : State) : (timerTurn s).serSeg = s.serSeg := rfl

@[simp] theorem timerTurn_serSel (s : State) : (timerTurn s).serSel = s.serSel := rfl

@[simp] theorem timerTurn_rfRun (s : State) : (timerTurn s).rfRun = s.rfRun := rfl

@[simp] theorem timerTurn_rfPend (s : State) : (timerTurn s).rfPend = true := rfl

@[simp] theorem timerTurn_srShift (s : State) : (timerTurn s).srShift = s.srShift := rfl

@[simp] theorem timerTurn_srOut (s : State) : (timerTurn s).srOut = s.srOut := rfl

@[simp] theorem timerTurn_fault (s : State) : (timerTurn s).fault = s.fault := rfl

@[simp] theorem timerTurn_refused (s : State) : (timerTurn s).refused = s.refused := rfl

@[simp] theorem timerTurn_pendingOps (s : State) : (timerTurn s).pendingOps = s.pendingOps := rfl

@[simp] theorem timerTurn_returned (s : State) : (timerTurn s).returned = s.returned := rfl

@[simp] theorem timerTurn_fireIn (s : State) : (timerTurn s).fireIn = none := rfl

@[simp] theorem timerTurn_draws (s : State) : (timerTurn s).draws = s.draws + 1 := rfl

/-! ### countTurn -/

@[simp] theorem countTurn_latch (s : State) : (countTurn s).latch = s.latch := by unfold countTurn; split <;> rfl

@[simp] theorem countTurn_clock (s : State) : (countTurn s).clock = s.clock := by unfold countTurn; split <;> rfl

@[simp] theorem countTurn_data (s : State) : (countTurn s).data = s.data := by unfold countTurn; split <;> rfl

@[simp] theorem countTurn_serK (s : State) : (countTurn s).serK = s.serK := by unfold countTurn; split <;> rfl

@[simp] theorem countTurn_serSeg (s : State) : (countTurn s).serSeg = s.serSeg := by unfold countTurn; split <;> rfl

@[simp] theorem countTurn_serSel (s : State) : (countTurn s).serSel = s.serSel := by unfold countTurn; split <;> rfl

@[simp] theorem countTurn_rfRun (s : State) : (countTurn s).rfRun = s.rfRun := by unfold countTurn; split <;> rfl

@[simp] theorem countTurn_rfPend (s : State) : (countTurn s).rfPend = s.rfPend := by unfold countTurn; split <;> rfl

@[simp] theorem countTurn_srShift (s : State) : (countTurn s).srShift = s.srShift := by unfold countTurn; split <;> rfl

@[simp] theorem countTurn_srOut (s : State) : (countTurn s).srOut = s.srOut := by unfold countTurn; split <;> rfl

@[simp] theorem countTurn_fault (s : State) : (countTurn s).fault = s.fault := by unfold countTurn; split <;> rfl

@[simp] theorem countTurn_refused (s : State) : (countTurn s).refused = s.refused := by unfold countTurn; split <;> rfl

@[simp] theorem countTurn_pendingOps (s : State) : (countTurn s).pendingOps = s.pendingOps := by unfold countTurn; split <;> rfl

@[simp] theorem countTurn_returned (s : State) : (countTurn s).returned = s.returned := by unfold countTurn; split <;> rfl

@[simp] theorem countTurn_draws (s : State) : (countTurn s).draws = s.draws := by unfold countTurn; split <;> rfl

/-! ### applyWrite -/

@[simp] theorem applyWrite_serK (w : PinWrite) (s : State) : (applyWrite w s).serK = s.serK := by unfold applyWrite; split <;> rfl

@[simp] theorem applyWrite_serSeg (w : PinWrite) (s : State) : (applyWrite w s).serSeg = s.serSeg := by unfold applyWrite; split <;> rfl

@[simp] theorem applyWrite_serSel (w : PinWrite) (s : State) : (applyWrite w s).serSel = s.serSel := by unfold applyWrite; split <;> rfl

@[simp] theorem applyWrite_rfRun (w : PinWrite) (s : State) : (applyWrite w s).rfRun = s.rfRun := by unfold applyWrite; split <;> rfl

@[simp] theorem applyWrite_rfPend (w : PinWrite) (s : State) : (applyWrite w s).rfPend = s.rfPend := by unfold applyWrite; split <;> rfl

@[simp] theorem applyWrite_fault (w : PinWrite) (s : State) : (applyWrite w s).fault = s.fault := by unfold applyWrite; split <;> rfl

@[simp] theorem applyWrite_refused (w : PinWrite) (s : State) : (applyWrite w s).refused = s.refused := by unfold applyWrite; split <;> rfl

@[simp] theorem applyWrite_pendingOps (w : PinWrite) (s : State) : (applyWrite w s).pendingOps = s.pendingOps := by unfold applyWrite; split <;> rfl

@[simp] theorem applyWrite_returned (w : PinWrite) (s : State) : (applyWrite w s).returned = s.returned := by unfold applyWrite; split <;> rfl

@[simp] theorem applyWrite_fireIn (w : PinWrite) (s : State) : (applyWrite w s).fireIn = s.fireIn := by unfold applyWrite; split <;> rfl

/-! ### serializerStep -/

@[simp] theorem serializerStep_serK (j : Fin 50) (s : State) : (serializerStep j s).serK = nextIndex j := by simp [serializerStep]

@[simp] theorem serializerStep_serSeg (j : Fin 50) (s : State) : (serializerStep j s).serSeg = s.serSeg := by simp [serializerStep]

@[simp] theorem serializerStep_serSel (j : Fin 50) (s : State) : (serializerStep j s).serSel = s.serSel := by simp [serializerStep]

@[simp] theorem serializerStep_rfRun (j : Fin 50) (s : State) : (serializerStep j s).rfRun = s.rfRun := by simp [serializerStep]

@[simp] theorem serializerStep_rfPend (j : Fin 50) (s : State) : (serializerStep j s).rfPend = s.rfPend := by simp [serializerStep]

@[simp] theorem serializerStep_fault (j : Fin 50) (s : State) : (serializerStep j s).fault = s.fault := by simp [serializerStep]

@[simp] theorem serializerStep_refused (j : Fin 50) (s : State) : (serializerStep j s).refused = s.refused := by simp [serializerStep]

@[simp] theorem serializerStep_pendingOps (j : Fin 50) (s : State) : (serializerStep j s).pendingOps = s.pendingOps := by simp [serializerStep]

@[simp] theorem serializerStep_returned (j : Fin 50) (s : State) :
    (serializerStep j s).returned = returnedAfter j s.returned := by simp [serializerStep]

@[simp] theorem serializerStep_fireIn (j : Fin 50) (s : State) : (serializerStep j s).fireIn = s.fireIn := by simp [serializerStep]

end Sys2Proof.Machine
end

