-- ==== Sys2Proof/Laws/Ops.lean ====
section
/-!
SUPPORT. One lemma for each shared operation that says everything it can do: the gate, the levels and edges of a pin,
the stages of the external register, the encoder's stages.
-/

namespace Sys2Proof.Machine

/-! ### The gate -/

/-- The gate lets a next state through exactly where the block is open. -/
theorem gated_next_iff {s t : State} {o : Host.Outcome State Fault Refusal} :
    gated s o = .next t ↔ s.isOpen ∧ o = .next t := by
  unfold gated State.isOpen
  cases hf : s.fault with
  | some f => simp
  | none => cases hr : s.refused <;> simp

theorem gated_of_isOpen {s : State} (h : s.isOpen) (o : Host.Outcome State Fault Refusal) : gated s o = o := by
  simp [gated, h.1, h.2]

theorem gated_of_fault {s : State} {f : Fault} (h : s.fault = some f) (o : Host.Outcome State Fault Refusal) :
    gated s o = .fault f := by
  simp [gated, h]

/-- The gate answers a fault only as the state or the operation behind it does. -/
theorem gated_fault_iff {s : State} {f : Fault} {o : Host.Outcome State Fault Refusal} :
    gated s o = .fault f ↔ s.fault = some f ∨ (s.isOpen ∧ o = .fault f) := by
  unfold gated State.isOpen
  cases hf : s.fault with
  | some g => simp
  | none => cases hr : s.refused <;> simp

/-! ### Levels and edges -/

@[simp] theorem ofBit_bit? (b : Bool) : (PinLevel.ofBit b).bit? = some b := by cases b <;> rfl

@[simp] theorem rising_false (old : PinLevel) (d : Bool) : rising old false d = false := by cases old <;> rfl

@[simp] theorem rising_lo (d : Bool) : rising .lo true d = true := rfl

@[simp] theorem rising_hi (d : Bool) : rising .hi true d = false := rfl

@[simp] theorem drawsAfter_false (old : PinLevel) (n : Nat) : drawsAfter old false n = n := by cases old <;> rfl

@[simp] theorem drawsAfter_lo (b : Bool) (n : Nat) : drawsAfter .lo b n = n := by cases b <;> rfl

@[simp] theorem drawsAfter_hi (b : Bool) (n : Nat) : drawsAfter .hi b n = n := by cases b <;> rfl

/-- A rising edge is a write of 1 from a low level, or one from an unknown level that the draw calls an edge. -/
theorem rising_eq_true_iff {old : PinLevel} {b d : Bool} :
    rising old b d = true ↔ b = true ∧ (old = .lo ∨ (old = .unknown ∧ d = true)) := by
  cases b <;> cases old <;> simp [rising]

/-! ### Stages -/

/-- Bit 0 of a shifted stage is the bit taken in. -/
theorem shiftIn_zero (v : Stage) (b : Option Bool) : (shiftIn v b)[0] = b := by
  unfold shiftIn
  exact (Vector.getElem_pop (by decide)).trans (by rw [Vector.getElem_append]; simp)

/-- Every other bit comes from the bit below it. -/
theorem shiftIn_succ (v : Stage) (b : Option Bool) (k : Nat) (h : k < 15) : (shiftIn v b)[k + 1] = v[k] := by
  unfold shiftIn
  exact (Vector.getElem_pop (by omega)).trans (by rw [Vector.getElem_append]; simp)

/-- Both together: what stands at bit `k` after a shift. -/
theorem shiftIn_getElem (v : Stage) (b : Option Bool) (k : Nat) (h : k < 16) :
    (shiftIn v b)[k] = if k = 0 then b else v[k - 1] := by
  cases k with
  | zero => simpa using shiftIn_zero v b
  | succ n => simpa using shiftIn_succ v b n (by omega)

@[simp] theorem stageOf_getElem (w : BitVec 16) (k : Nat) (h : k < 16) : (stageOf w)[k] = some (w.getLsbD k) := by
  simp [stageOf, BitVec.getLsbD_eq_getElem h]

/-! ### The encoder's stages -/

theorem digitStage_of_le {d : Digit} (h : d ≤ 9) : digitStage d = some (Config.segTable d) := if_pos h

theorem digitStage_of_not_le {d : Digit} (h : ¬ d ≤ 9) : digitStage d = none := if_neg h

/-- The indicator stage clears bit 7 and keeps every other bit. -/
theorem indicatorStage_getLsbD (p : Byte) (k : Nat) :
    (indicatorStage p).getLsbD k = if k < 7 then p.getLsbD k else false := by
  unfold indicatorStage
  rw [BitVec.getLsbD_and]
  by_cases hk : k < 8
  · interval_cases k <;> simp
  · have : p.getLsbD k = false := BitVec.getLsbD_of_ge _ _ (by omega)
    simp [this]

end Sys2Proof.Machine
end

