-- ==== Sys2Proof/Laws/Exec.lean ====
section
/-!
SUPPORT. What each meaning can answer, said once: when it answers a next state and which.
-/

namespace Sys2Proof.Machine

theorem execEncode_next_iff {d : Digit} {s t : State} :
    execEncode d s = .next t ↔ s.isOpen ∧
      ((d ≤ 9 ∧ t = giveBack (.pattern (Config.segTable d)) s) ∨ (¬ d ≤ 9 ∧ t = raiseFault (.digitRange d) s)) := by
  unfold execEncode
  rw [gated_next_iff]
  by_cases h : d ≤ 9
  · rw [digitStage_of_le h]; simp only [h, not_true, true_and, false_and, or_false, Host.Outcome.next.injEq, eq_comm]
  · rw [digitStage_of_not_le h]; simp only [h, not_false_eq_true, true_and, false_and, false_or, Host.Outcome.next.injEq, eq_comm]

theorem execWithColon_next_iff {p : Byte} {s t : State} :
    execWithColon p s = .next t ↔ s.isOpen ∧ t = giveBack (.pattern (indicatorStage p)) s := by
  unfold execWithColon; rw [gated_next_iff]; simp [eq_comm]

theorem execWithDecimal_next_iff {p : Byte} {s t : State} :
    execWithDecimal p s = .next t ↔ s.isOpen ∧ t = giveBack (.pattern (indicatorStage p)) s := by
  unfold execWithDecimal; rw [gated_next_iff]; simp [eq_comm]

theorem execBlank_next_iff {s t : State} :
    execBlank s = .next t ↔ s.isOpen ∧ t = giveBack (.pattern blankPattern) s := by
  unfold execBlank; rw [gated_next_iff]; simp [eq_comm]

theorem execShiftOut_next_iff {seg sel : Byte} {s t : State} :
    execShiftOut seg sel s = .next t ↔ s.isOpen ∧ s.serK = none ∧ t = startTransfer seg sel s := by
  unfold execShiftOut
  rw [gated_next_iff]
  cases s.serK <;> simp [eq_comm]

theorem execStartRefresh_next_iff {s t : State} :
    execStartRefresh s = .next t ↔ s.isOpen ∧ t = giveBack .noValue (startTimer s) := by
  unfold execStartRefresh; rw [gated_next_iff]; simp [eq_comm]

theorem execTakeRefresh_next_iff {s t : State} :
    execTakeRefresh s = .next t ↔ s.isOpen ∧ t = giveBack (.flag s.rfPend) (clearPending s) := by
  unfold execTakeRefresh; rw [gated_next_iff]; simp [eq_comm]

/-- Everything an operation can do to the state it finds, one alternative per kind of effect. -/
theorem exec_next_cases {i : Instr} {s t : State} (h : exec i s = .next t) :
    s.isOpen ∧
      ((∃ p, t = giveBack (.pattern p) s ∧ (∀ seg sel, i ≠ .shiftOut seg sel) ∧ i ≠ .startRefresh ∧ i ≠ .takeRefresh) ∨
       (∃ d, i = .encode d ∧ ¬ d ≤ 9 ∧ t = raiseFault (.digitRange d) s) ∨
       (∃ seg sel, i = .shiftOut seg sel ∧ s.serK = none ∧ t = startTransfer seg sel s) ∨
       (i = .startRefresh ∧ t = giveBack .noValue (startTimer s)) ∨
       (i = .takeRefresh ∧ t = giveBack (.flag s.rfPend) (clearPending s))) := by
  cases i with
  | encode d =>
    obtain ⟨ho, ⟨_, rfl⟩ | ⟨hd, rfl⟩⟩ := execEncode_next_iff.1 h
    · exact ⟨ho, .inl ⟨_, rfl, by simp, by simp, by simp⟩⟩
    · exact ⟨ho, .inr (.inl ⟨d, rfl, hd, rfl⟩)⟩
  | withColon p =>
    obtain ⟨ho, rfl⟩ := execWithColon_next_iff.1 h
    exact ⟨ho, .inl ⟨_, rfl, by simp, by simp, by simp⟩⟩
  | withDecimal p =>
    obtain ⟨ho, rfl⟩ := execWithDecimal_next_iff.1 h
    exact ⟨ho, .inl ⟨_, rfl, by simp, by simp, by simp⟩⟩
  | blank =>
    obtain ⟨ho, rfl⟩ := execBlank_next_iff.1 h
    exact ⟨ho, .inl ⟨_, rfl, by simp, by simp, by simp⟩⟩
  | shiftOut seg sel =>
    obtain ⟨ho, hk, rfl⟩ := execShiftOut_next_iff.1 h
    exact ⟨ho, .inr (.inr (.inl ⟨seg, sel, rfl, hk, rfl⟩))⟩
  | startRefresh =>
    obtain ⟨ho, rfl⟩ := execStartRefresh_next_iff.1 h
    exact ⟨ho, .inr (.inr (.inr (.inl ⟨rfl, rfl⟩)))⟩
  | takeRefresh =>
    obtain ⟨ho, rfl⟩ := execTakeRefresh_next_iff.1 h
    exact ⟨ho, .inr (.inr (.inr (.inr ⟨rfl, rfl⟩)))⟩

end Sys2Proof.Machine
end

