-- ==== Sys2Proof/Laws/PerInstr.lean ====
section
/-!
SUPPORT. Statements for all operations, made per operation. `OpcodeRow`: the word of an operation lies in the row of
spec/30_encoding.md R50 that its mnemonic names.
-/

namespace Sys2Proof.Laws.OpcodeRow

/-- The word of `i` selects the row of `i`: `w & mask = match` (R50). -/
def Statement (i : Instr) : Prop := encodeInstr i &&& rowMask i = rowMatch i

theorem encode (d : Digit) : Statement (.encode d) := by
  unfold Statement; revert d; decide

theorem withColon (p : Byte) : Statement (.withColon p) := by
  unfold Statement; revert p; decide +kernel

theorem withDecimal (p : Byte) : Statement (.withDecimal p) := by
  unfold Statement; revert p; decide +kernel

theorem blank : Statement .blank := by unfold Statement; decide

theorem shiftOut (s e : Byte) : Statement (.shiftOut s e) := by
  refine BitVec.eq_of_getLsbD_eq fun k hk => ?_
  show (packWord 0x05 s e &&& 0xFF0000).getLsbD k = (0x050000 : OpWord).getLsbD k
  rw [BitVec.getLsbD_and, packWord_getLsbD]
  interval_cases k <;> simp

theorem startRefresh : Statement .startRefresh := by unfold Statement; decide

theorem takeRefresh : Statement .takeRefresh := by unfold Statement; decide

end Sys2Proof.Laws.OpcodeRow
end

