-- ==== Sys2Proof/Laws/Serializer.lean ====
section
/-!
SUPPORT. The 50 writes by their place in the closed form of spec/41_serializer.md R72, and one serializer step at each place.
-/

namespace Sys2Proof.Machine

/-! ### The writes -/

@[simp] theorem writeAt_first (seg sel : Byte) : writeAt seg sel 0 = ⟨.latch, false⟩ := rfl

@[simp] theorem writeAt_last (seg sel : Byte) : writeAt seg sel 49 = ⟨.latch, true⟩ := rfl

theorem writeAt_data (seg sel : Byte) {i : Nat} (h : i < 16) :
    writeAt seg sel (3 * i + 1) = ⟨.data, streamBit seg sel i⟩ := by
  have h0 : ¬ 3 * i + 1 = 49 := by omega
  have h1 : (3 * i + 1 - 1) % 3 = 0 := by omega
  have h2 : (3 * i + 1 - 1) / 3 = i := by omega
  unfold writeAt
  rw [if_neg (by omega), if_neg h0, h1, h2]
  rfl

theorem writeAt_clockLow (seg sel : Byte) {i : Nat} (h : i < 16) :
    writeAt seg sel (3 * i + 2) = ⟨.clock, false⟩ := by
  have h0 : ¬ 3 * i + 2 = 49 := by omega
  have h1 : (3 * i + 2 - 1) % 3 = 1 := by omega
  unfold writeAt
  rw [if_neg (by omega), if_neg h0, h1]
  rfl

theorem writeAt_clockHigh (seg sel : Byte) {i : Nat} (h : i < 16) :
    writeAt seg sel (3 * i + 3) = ⟨.clock, true⟩ := by
  have h0 : ¬ 3 * i + 3 = 49 := by omega
  have h1 : (3 * i + 3 - 1) % 3 = 2 := by omega
  unfold writeAt
  rw [if_neg (by omega), if_neg h0, h1]
  rfl

/-- Every index of a call is the first write, the last one, or one of a bit's three. -/
theorem index_cases (j : Fin 50) :
    j.val = 0 ∨ j.val = 49 ∨ ∃ i < 16, j.val = 3 * i + 1 ∨ j.val = 3 * i + 2 ∨ j.val = 3 * i + 3 := by
  by_cases h0 : j.val = 0
  · exact .inl h0
  by_cases h1 : j.val = 49
  · exact .inr (.inl h1)
  exact .inr (.inr ⟨(j.val - 1) / 3, by omega, by omega⟩)

/-- The bit sent `i`-th is bit `15 - i` of the two bytes taken together (R71). -/
theorem streamBit_eq (seg sel : Byte) {i : Nat} (h : i < 16) :
    streamBit seg sel i = (seg ++ sel : BitVec 16).getLsbD (15 - i) := by
  have e : (seg ++ sel : BitVec 16).getLsbD (15 - i) =
      if 15 - i < 8 then sel.getLsbD (15 - i) else seg.getLsbD (15 - i - 8) := BitVec.getLsbD_append
  rw [e]; unfold streamBit
  by_cases hi : i < 8
  · rw [if_pos hi, if_neg (by omega)]; congr 1; omega
  · rw [if_neg hi, if_pos (by omega)]

/-! ### The index -/

theorem nextIndex_of_lt {j : Fin 50} (h : j.val < 49) : nextIndex j = some ⟨j.val + 1, by omega⟩ := dif_pos h

@[simp] theorem nextIndex_last : nextIndex 49 = none := rfl

/-! ### One serializer step on the pins and stages -/

theorem serializerStep_latch (j : Fin 50) (s : State) :
    (serializerStep j s).latch = if j.val = 0 then .lo else if j.val = 49 then .hi else s.latch := by
  unfold serializerStep
  obtain h | h | ⟨i, hi, h | h | h⟩ := index_cases j <;> rw [h]
  · simp [applyWrite, PinLevel.ofBit]
  · simp [applyWrite, PinLevel.ofBit]
  · simp [writeAt_data _ _ hi, applyWrite, show ¬ 3 * i + 1 = 49 by omega]
  · simp [writeAt_clockLow _ _ hi, applyWrite, show ¬ 3 * i + 2 = 49 by omega]
  · simp [writeAt_clockHigh _ _ hi, applyWrite, show ¬ 3 * i + 3 = 49 by omega]

/-- Only the last write of a call can change the outputs, and it copies the shift stage there or leaves them. -/
theorem serializerStep_srOut (j : Fin 50) (s : State) :
    (serializerStep j s).srOut =
      if j.val = 49 ∧ rising s.latch true (Config.latchEdgeFromUnknown s.draws) then s.srShift else s.srOut := by
  unfold serializerStep
  obtain h | h | ⟨i, hi, h | h | h⟩ := index_cases j <;> rw [h]
  · simp [applyWrite]
  · simp [applyWrite]
  · simp [writeAt_data _ _ hi, applyWrite, show ¬ 3 * i + 1 = 49 by omega]
  · simp [writeAt_clockLow _ _ hi, applyWrite, show ¬ 3 * i + 2 = 49 by omega]
  · simp [writeAt_clockHigh _ _ hi, applyWrite, show ¬ 3 * i + 3 = 49 by omega]

@[simp] theorem serializerTurn_of_some {j : Fin 50} {s : State} (h : s.serK = some j) :
    serializerTurn s = serializerStep j s := by simp [serializerTurn, h]

@[simp] theorem serializerTurn_of_none {s : State} (h : s.serK = none) : serializerTurn s = s := by
  simp [serializerTurn, h]

/-- A fire and a write go by each other: neither reads what the other writes (R84). -/
theorem fire_serializerStep (j : Fin 50) (s : State) : fire (serializerStep j s) = serializerStep j (fire s) := by
  simp only [serializerStep, applyWrite, fire_serSeg, fire_serSel]
  cases (writeAt s.serSeg s.serSel j).pin <;> rfl

/-! ### The timer's countdown and a write go by each other -/

theorem serializerStep_setFireIn (j : Fin 50) (s : State) (g : Option Nat) :
    serializerStep j { s with fireIn := g } = { serializerStep j s with fireIn := g } := by
  simp only [serializerStep, applyWrite]
  cases (writeAt s.serSeg s.serSel j).pin <;> rfl

theorem serializerTurn_setFireIn (s : State) (g : Option Nat) :
    serializerTurn { s with fireIn := g } = { serializerTurn s with fireIn := g } := by
  by_cases hn : s.serK = none
  · rw [serializerTurn_of_none hn]; exact serializerTurn_of_none hn
  · obtain ⟨j, hk⟩ := Option.ne_none_iff_exists'.1 hn
    rw [serializerTurn_of_some hk]
    exact (serializerTurn_of_some (s := { s with fireIn := g }) hk).trans (serializerStep_setFireIn j s g)

theorem serializerTurns_setFireIn (n : Nat) (s : State) (g : Option Nat) :
    serializerTurns n { s with fireIn := g } = { serializerTurns n s with fireIn := g } := by
  induction n generalizing s with
  | zero => rfl
  | succ n ih =>
    show serializerTurns n (serializerTurn { s with fireIn := g }) = { serializerTurns n (serializerTurn s) with fireIn := g }
    rw [serializerTurn_setFireIn, ih]

theorem serializerTurns_add (m n : Nat) (s : State) :
    serializerTurns (m + n) s = serializerTurns n (serializerTurns m s) := by
  induction m generalizing s with
  | zero => simp [serializerTurns]
  | succ m ih => rw [Nat.succ_add]; exact ih _

end Sys2Proof.Machine

namespace Sys2Proof.Safety

open Sys2Proof.Machine

/-- A serializer step with its write named. -/
theorem serializerStep_eq (j : Fin 50) (s : State) (w : PinWrite) (hw : writeAt s.serSeg s.serSel j = w) :
    serializerStep j s =
      { applyWrite w s with serK := nextIndex j, returned := returnedAfter j (applyWrite w s).returned } := by
  unfold serializerStep; rw [hw]

/-- A step before the last carries what holds of a transfer at `j` to `j + 1` (R72, R75, R76, R79). -/
theorem serializerStep_transferAt (j : Fin 50) (hj : j.val < 49) (s : State) (h : TransferAt s j) :
    TransferAt (serializerStep j s) (j.val + 1) := by
  obtain ⟨hl, hd, hc, hb⟩ := h
  obtain h0 | h0 | ⟨i, hi, h0 | h0 | h0⟩ := index_cases j
  · rw [serializerStep_eq j s _ ((congrArg (writeAt s.serSeg s.serSel) h0).trans (writeAt_first _ _))]
    simp only [applyWrite, driveLatch]
    refine ⟨fun _ => rfl, fun h => by omega, fun h => by omega, fun k hk => ?_⟩
    simp [bitsSent, h0] at hk
  · omega
  · rw [serializerStep_eq j s _ ((congrArg (writeAt s.serSeg s.serSel) h0).trans (writeAt_data _ _ hi))]
    have e1 : (j.val + 1 - 2) / 3 = i := by omega
    have e2 : bitsSent (j.val+1) = bitsSent j := by unfold bitsSent; omega
    refine ⟨fun _ => hl (by omega), fun h => ?_, fun h => ?_, fun k hk => ?_⟩
    · rw [e1]; rfl
    · have := hc (by omega)
      have e3 : ((j.val) % 3 ≠ 2) := by omega
      have e4 : ((j.val - 1) % 3 ≠ 2) := by omega
      simpa [e3, e4, applyWrite] using this
    · rw [e2] at hk ⊢; exact hb k hk
  · rw [serializerStep_eq j s _ ((congrArg (writeAt s.serSeg s.serSel) h0).trans (writeAt_clockLow _ _ hi))]
    have e1 : (j.val + 1 - 2) / 3 = (j.val - 2)/3 := by omega
    have e2 : bitsSent (j.val+1) = bitsSent j := by unfold bitsSent; omega
    refine ⟨fun _ => hl (by omega), fun h => ?_, fun h => ?_, fun k hk => ?_⟩
    · rw [e1]; exact hd (by omega)
    · have e3 : ((j.val) % 3 = 2) := by omega
      simp [e3, applyWrite, PinLevel.ofBit]
    · rw [e2] at hk ⊢; simpa [applyWrite] using hb k hk
  · rw [serializerStep_eq j s _ ((congrArg (writeAt s.serSeg s.serSel) h0).trans (writeAt_clockHigh _ _ hi))]
    have hcl : s.clock = .lo := by
      have := hc (by omega)
      have e4 : ((j.val - 1) % 3 = 2) := by omega
      simpa [e4, PinLevel.ofBit] using this
    have hda := hd (by omega)
    have e1 : (j.val + 1 - 2) / 3 = (j.val - 2)/3 := by omega
    have e1' : (j.val - 2)/3 = i := by omega
    have e2 : bitsSent (j.val+1) = i + 1 := by unfold bitsSent; omega
    have e2' : bitsSent (j.val) = i := by unfold bitsSent; omega
    refine ⟨fun _ => hl (by omega), fun h => ?_, fun h => ?_, fun k hk => ?_⟩
    · rw [e1]; exact hd (by omega)
    · have e3 : ((j.val) % 3 ≠ 2) := by omega
      simp [e3, applyWrite, PinLevel.ofBit]
    · rw [e2] at hk ⊢
      have hv : (driveClock true s).srShift = shiftIn s.srShift (some (streamBit s.serSeg s.serSel i)) := by
        rw [driveClock_srShift, hcl, rising_lo, if_pos rfl, hda, e1', ofBit_bit?]
      have : ∀ v : Stage, v = shiftIn s.srShift (some (streamBit s.serSeg s.serSel i)) →
          v[k] = some (streamBit s.serSeg s.serSel (i + 1 - 1 - k.val)) := by
        rintro v rfl
        show (shiftIn _ _)[k.val] = _
        rw [shiftIn_getElem]
        split
        · rename_i h; rw [h]; simp
        · rw [show i + 1 - 1 - k.val = i - 1 - (k.val - 1) by omega]
          have := hb ⟨k.val - 1, by omega⟩ (by rw [e2']; simp; omega)
          rw [e2'] at this; exact this
      exact this _ hv

end Sys2Proof.Safety
end

