-- ==== Sys2Proof/Laws/Step.lean ====
section
/-!
SUPPORT. One step of the block, turned over once: which agent moved and what it did. Invariants are derived from
`step_next_cases` without unfolding `step`.
-/

namespace Sys2Proof.Machine

@[simp] theorem fireEnabled_eq (s : State) : fireEnabled s = (s.rfRun && s.fault.isNone) := rfl

theorem step_of_isOpen {s : State} (h : s.isOpen) : step s = takeTurn (turnOf s) s := gated_of_isOpen h _

theorem step_of_fault {s : State} {f : Fault} (h : s.fault = some f) : step s = .fault f := gated_of_fault h _

theorem countTurn_isOpen {s : State} : (countTurn s).isOpen ↔ s.isOpen := by simp [State.isOpen]

/-- Where the timer is not next, the turn is settled by the serializer and the waiting operations. -/
theorem turnOf_of_not_timer {s : State} (h : timerIsNext s = false) :
    turnOf s = match s.serK with
      | some j => .serializer j
      | none => match s.pendingOps with
        | w :: ws => .host w ws
        | [] => .wait := by
  unfold turnOf
  refine (if_neg (by simp [h])).trans ?_
  cases s.serK with
  | some j => rfl
  | none => cases s.pendingOps <;> rfl

/-- What each answer of `turnOf` says of the state. -/
theorem turnOf_cases (s : State) :
    (turnOf s = .timer ∧ timerIsNext s = true) ∨
    (timerIsNext s = false ∧
      ((∃ j, turnOf s = .serializer j ∧ s.serK = some j) ∨
       (∃ w ws, turnOf s = .host w ws ∧ s.serK = none ∧ s.pendingOps = w :: ws) ∨
       (turnOf s = .wait ∧ s.serK = none ∧ s.pendingOps = []))) := by
  cases ht : timerIsNext s with
  | true => exact .inl ⟨by simp [turnOf, ht], rfl⟩
  | false =>
    refine .inr ⟨rfl, ?_⟩
    rw [turnOf_of_not_timer ht]
    cases hk : s.serK with
    | some j => exact .inl ⟨j, rfl, rfl⟩
    | none =>
      cases hp : s.pendingOps with
      | nil => exact .inr (.inr ⟨rfl, rfl, rfl⟩)
      | cons w ws => exact .inr (.inl ⟨w, ws, rfl, rfl, rfl⟩)

/-- Issuing a word: an operation's own answer, or the illegal word's fault. -/
theorem issue_next_cases {w : OpWord} {s t : State} (h : issue w s = .next t) :
    s.isOpen ∧
      ((∃ i, decode w = .ok i ∧ exec i s = .next t) ∨ (∃ e, decode w = .error e ∧ t = raiseFault (.illegal w) s)) := by
  obtain ⟨ho, h⟩ := gated_next_iff.1 h
  refine ⟨ho, ?_⟩
  cases hd : decode w with
  | ok i => rw [hd] at h; exact .inl ⟨i, rfl, h⟩
  | error e => rw [hd] at h; exact .inr ⟨e, rfl, by simpa [eq_comm] using h⟩

/-- Everything a step can do. -/
theorem step_next_cases {s t : State} (h : step s = .next t) :
    s.isOpen ∧
      ((turnOf s = .timer ∧ timerIsNext s = true ∧ t = timerTurn s) ∨
       (∃ j, turnOf s = .serializer j ∧ s.serK = some j ∧ t = serializerStep j (countTurn s)) ∨
       (∃ w ws, turnOf s = .host w ws ∧ s.serK = none ∧ s.pendingOps = w :: ws ∧
         ((∃ i, decode w = .ok i ∧ exec i { countTurn s with pendingOps := ws } = .next t) ∨
          (∃ e, decode w = .error e ∧ t = raiseFault (.illegal w) { countTurn s with pendingOps := ws }))) ∨
       (turnOf s = .wait ∧ s.serK = none ∧ s.pendingOps = [] ∧ t = countTurn s)) := by
  obtain ⟨ho, h⟩ := gated_next_iff.1 h
  refine ⟨ho, ?_⟩
  obtain ⟨ht, hn⟩ | ⟨-, ⟨j, ht, hk⟩ | ⟨w, ws, ht, hk, hp⟩ | ⟨ht, hk, hp⟩⟩ := turnOf_cases s <;>
    rw [ht] at h
  · exact .inl ⟨ht, hn, by simpa [takeTurn, eq_comm] using h⟩
  · exact .inr (.inl ⟨j, ht, hk, by simpa [takeTurn, eq_comm] using h⟩)
  · exact .inr (.inr (.inl ⟨w, ws, ht, hk, hp, (issue_next_cases h).2⟩))
  · exact .inr (.inr (.inr ⟨ht, hk, hp, by simpa [takeTurn, eq_comm] using h⟩))

/-- A step in which a running timer leaves a turn counts it, whoever takes it. -/
theorem step_countdown {s t : State} {n : Nat} (h : step s = .next t) (hr : s.rfRun = true) (hn : turnsBeforeFire s = n + 1) :
    t.rfRun = true ∧ t.fireIn = some n := by
  have hc : s.isOpen → (countTurn s).fireIn = some n := fun ho => by simp [countTurn, hr, ho.1, hn]
  obtain ⟨ho, ⟨-, ht, rfl⟩ | ⟨j, -, -, rfl⟩ | ⟨w, ws, -, -, -, ⟨i, -, he⟩ | ⟨e, -, rfl⟩⟩ | ⟨-, -, -, rfl⟩⟩ := step_next_cases h
  · simp [timerIsNext, hn] at ht
  · simp [hr, hc ho]
  · obtain ⟨-, ⟨p, rfl, -⟩ | ⟨d, rfl, -, rfl⟩ | ⟨a, b, rfl, -, rfl⟩ | ⟨rfl, rfl⟩ | ⟨rfl, rfl⟩⟩ := exec_next_cases he <;>
      simp [hr, hc ho]
  · simp [hr, hc ho]
  · simp [hr, hc ho]

end Sys2Proof.Machine
end

