-- ==== Sys2Proof/Laws/Runs.lean ====
section
/-!
SUPPORT. Runs of several steps, taken one step at a time, and what holds while the timer leaves the turns to others.
-/

namespace Sys2Proof.Safety

open Sys2Proof.Machine

@[simp] theorem runs_zero (s : State) : runs 0 s = .next s := rfl

/-- One step of a run of any machine, by the step's outcome. -/
theorem run_succ (M : Host.Core) (k : Nat) (s : M.State) :
    (∀ u, M.step s = .next u → M.run (k + 1) s = M.run k u) ∧
    (∀ f, M.step s = .fault f → M.run (k + 1) s = .fault f) ∧
    (∀ r, M.step s = .refused r → M.run (k + 1) s = .refused r) := by
  refine ⟨fun u h => ?_, fun f h => ?_, fun r h => ?_⟩ <;> simp [Host.Core.run, h]

theorem runs_succ_of_next {s u : State} (h : step s = .next u) (k : Nat) : runs (k + 1) s = runs k u :=
  (run_succ Sys2Proof.core k s).1 u h

theorem runs_succ_of_fault {s : State} {f : Fault} (h : step s = .fault f) (k : Nat) : runs (k + 1) s = .fault f :=
  (run_succ Sys2Proof.core k s).2.1 f h

theorem runs_succ_of_refused {s : State} {r : Refusal} (h : step s = .refused r) (k : Nat) :
    runs (k + 1) s = .refused r :=
  (run_succ Sys2Proof.core k s).2.2 r h

/-- A run of `k + 1` steps is a step and then a run of `k`. -/
theorem runs_succ_next_iff {k : Nat} {s t : State} :
    runs (k + 1) s = .next t ↔ ∃ u, step s = .next u ∧ runs k u = .next t := by
  cases h : step s with
  | next u => rw [runs_succ_of_next h]; simp
  | fault f => rw [runs_succ_of_fault h]; simp
  | refused r => rw [runs_succ_of_refused h]; simp

/-- What the count of a turn leaves where the timer leaves at least one. -/
theorem LeavesTurns.countTurn {n : Nat} {s : State} {f : Option Nat} (ho : s.isOpen) (h : LeavesTurns (n + 1) s f) :
    timerIsNext s = false ∧ LeavesTurns n (Machine.countTurn s) f := by
  obtain ⟨hr, rfl⟩ | ⟨m, hr, hf, rfl⟩ := h
  · exact ⟨by simp [timerIsNext, hr], .inl ⟨by simpa using hr, by simp [Machine.countTurn, hr]⟩⟩
  · have hc : (Machine.countTurn s).fireIn = some (m + n) := by simp [Machine.countTurn, hr, ho.1, hf]
    refine ⟨by simp [timerIsNext, hf], .inr ⟨m, by simpa using hr, by simp [turnsBeforeFire, hc], ?_⟩⟩
    rw [hc]; split <;> simp_all

theorem LeavesTurns.mono {a b : Nat} {s : State} {f : Option Nat} (h : LeavesTurns (a + b) s f) :
    ∃ g, LeavesTurns a s g := by
  obtain ⟨x, rfl⟩ | ⟨m, x, y, -⟩ := h
  · exact ⟨_, .inl ⟨x, rfl⟩⟩
  · exact ⟨_, .inr ⟨m + b, x, by rw [y]; omega, rfl⟩⟩

/-! ### A call in progress -/

/-- A stage that holds the sixteen bits of a stream holds the two bytes (R71, R81). -/
theorem stageOf_of_streamBits {seg sel : Byte} {v : Stage}
    (h : ∀ k : Fin 16, k.val < 16 → v[k] = some (streamBit seg sel (16 - 1 - k.val))) : v = stageOf (seg ++ sel) := by
  ext k hk : 1
  have := h ⟨k, hk⟩ hk
  simp only [Fin.getElem_fin] at this
  rw [this, streamBit_eq _ _ (by omega), stageOf_getElem]
  congr 2; omega

/-- The state after `n` writes of a call: where the transfer stands, and that only pins, shift stage, index and return
port have changed from the issue. -/
theorem serializerTurns_startTransfer (seg sel : Byte) (s : State) (n : Nat) (hn : n < 50) :
    ∃ t, serializerTurns n (startTransfer seg sel s) = t ∧ t.serK = some ⟨n, hn⟩ ∧ TransferAt t n ∧
      t = { s with
        latch := t.latch, clock := t.clock, data := t.data, srShift := t.srShift, serSeg := seg, serSel := sel,
        serK := t.serK, returned := none } := by
  induction n with
  | zero =>
    refine ⟨_, rfl, rfl, ⟨by simp, by simp, by simp, fun k hk => by simp [bitsSent] at hk⟩, rfl⟩
  | succ n ih =>
    obtain ⟨t, h1, hk, hT, he⟩ := ih (by omega)
    have e : serializerTurns (n+1) (startTransfer seg sel s) = serializerStep ⟨n, by omega⟩ t := by
      rw [serializerTurns_add, h1]; simp [serializerTurns, serializerTurn_of_some hk]
    refine ⟨_, rfl, ?_, ?_, ?_⟩
    · rw [e]; simp [nextIndex, show n < 49 by omega]
    · rw [e]; exact serializerStep_transferAt ⟨n, by omega⟩ (by simp; omega) t hT
    · rw [e]
      have hret : t.returned = none := by rw [he]
      have hlt : n < 49 := by omega
      have hd : (serializerStep ⟨n, by omega⟩ t).draws = t.draws := by
        unfold serializerStep
        obtain h | h | ⟨i, hi, h | h | h⟩ := index_cases ⟨n, by omega⟩ <;> rw [h]
        · simp [applyWrite]
        · simp at h; omega
        · simp [writeAt_data _ _ hi, applyWrite]
        · simp [writeAt_clockLow _ _ hi, applyWrite]
        · have := hT.2.2.1 (by simp at h; omega)
          have e4 : ((n - 1) % 3 = 2) := by simp at h; omega
          simp [e4, PinLevel.ofBit] at this
          simp [writeAt_clockHigh _ _ hi, applyWrite, this]
      have ho : (serializerStep ⟨n, by omega⟩ t).srOut = t.srOut := by
        rw [serializerStep_srOut, if_neg]; simp; omega
      generalize hu : serializerStep ⟨n, by omega⟩ t = u at *
      have f1 : u.serSeg = t.serSeg := by rw [← hu]; simp
      have f2 : u.serSel = t.serSel := by rw [← hu]; simp
      have f3 : u.rfRun = t.rfRun := by rw [← hu]; simp
      have f4 : u.rfPend = t.rfPend := by rw [← hu]; simp
      have f5 : u.fault = t.fault := by rw [← hu]; simp
      have f6 : u.refused = t.refused := by rw [← hu]; simp
      have f7 : u.pendingOps = t.pendingOps := by rw [← hu]; simp
      have f8 : u.fireIn = t.fireIn := by rw [← hu]; simp
      have f9 : u.returned = t.returned := by rw [← hu]; simp [returnedAfter, hlt]
      have q : ∀ {α} (g : State → α), g t = g { s with
          latch := t.latch, clock := t.clock, data := t.data, srShift := t.srShift, serSeg := seg, serSel := sel,
          serK := t.serK, returned := none } := fun g => congrArg g he
      exact State.eq_of_fields rfl rfl rfl rfl (f1.trans (q _)) (f2.trans (q _)) (f3.trans (q _)) (f4.trans (q _)) rfl
        (ho.trans (q State.srOut)) (f5.trans (q _)) (f6.trans (q _)) (f7.trans (q _)) (f9.trans (q _)) (f8.trans (q _))
        (hd.trans (q State.draws))

/-- Where the timer leaves the turns and the serializer is busy at each of them, a run of the block is that many
serializer steps, with the timer's countdown moved on. -/
theorem runs_serializer (n : Nat) (s : State) (f : Option Nat) (ho : s.isOpen) (hf : LeavesTurns n s f)
    (hm : ∀ m, m < n → (serializerTurns m s).serK ≠ none) :
    runs n s = .next { serializerTurns n s with fireIn := f } := by
  induction n generalizing s with
  | zero =>
    obtain ⟨-, rfl⟩ | ⟨m, -, h1, rfl⟩ := hf
    · rfl
    · rfl
  | succ n ih =>
    obtain ⟨hn, hL⟩ := hf.countTurn ho
    obtain ⟨j, hk⟩ := Option.ne_none_iff_exists'.1 (hm 0 (by omega))
    have hk : s.serK = some j := hk
    have hs : step s = .next (serializerStep j (countTurn s)) := by
      rw [step_of_isOpen ho, turnOf_of_not_timer hn, hk]; rfl
    have hc : countTurn s = { s with fireIn := (countTurn s).fireIn } := by unfold countTurn; split <;> rfl
    have hsr : ∀ m, serializerTurns m (serializerStep j s) = serializerTurns (m + 1) s := fun m => by
      simp [serializerTurns, serializerTurn_of_some hk]
    rw [runs_succ_of_next hs, ih (serializerStep j (countTurn s)) (by simpa [State.isOpen] using ho)]
    · rw [hc, serializerStep_setFireIn, serializerTurns_setFireIn, hsr]
    · obtain ⟨a, b⟩ | ⟨m, a, b, c⟩ := hL
      · exact .inl ⟨(serializerStep_rfRun ..).trans a, b.trans (serializerStep_fireIn ..).symm⟩
      · have hc' : (countTurn s).fireIn = some (turnsBeforeFire s - 1) := by
          have : s.rfRun = true := by simpa using a
          simp [Machine.countTurn, this, ho.1]
        refine .inr ⟨m, (serializerStep_rfRun ..).trans a, ?_, by rw [serializerStep_fireIn]; exact c⟩
        simp only [turnsBeforeFire, serializerStep_fireIn, hc'] at b ⊢; exact b
    · intro m hmn
      rw [hc, serializerStep_setFireIn, serializerTurns_setFireIn, hsr]
      exact hm (m + 1) (by omega)

end Sys2Proof.Safety
end

