-- ==== Sys2Proof/Laws/System.lean ====
section
/-!
SUPPORT. The block with its reference host: whose turn it is, runs in parts, turns in which neither timer moves, the digits a plan gives to `encode`, and the enable bytes.
-/

namespace Sys2Proof.Safety

open Sys2Proof.Machine

@[simp] theorem countSlow_block (σ : System) : (countSlow σ).block = σ.block := by unfold countSlow; split <;> rfl
@[simp] theorem countSlow_ref (σ : System) : (countSlow σ).ref = σ.ref := by unfold countSlow; split <;> rfl
@[simp] theorem countSlow_slowDraws (σ : System) : (countSlow σ).slowDraws = σ.slowDraws := by unfold countSlow; split <;> rfl
theorem countSlow_slowIn {σ : System} (h : σ.ref.slowRun = true) : (countSlow σ).slowIn = some (turnsBeforeTick σ - 1) := by
  simp [countSlow, h]

@[simp] theorem slowTurn_slowDraws (σ : System) : (slowTurn σ).slowDraws = σ.slowDraws + 1 := rfl
@[simp] theorem slowTurn_ref (σ : System) : (slowTurn σ).ref = slowTick σ.ref := rfl
@[simp] theorem slowTurn_block (σ : System) : (slowTurn σ).block = countTurn σ.block := rfl

@[simp] theorem hostTurn_slowIn (inp : Inputs) (σ : System) : (hostTurn inp σ).slowIn = (countSlow σ).slowIn := rfl
@[simp] theorem hostTurn_slowDraws (inp : Inputs) (σ : System) : (hostTurn inp σ).slowDraws = σ.slowDraws := by
  simp [hostTurn]

theorem goOn_of_isOpen {σ : System} (h : σ.block.isOpen) : goOn σ = .next σ := by
  unfold goOn; rw [gated_of_isOpen h]; rfl

/-- What each answer of `sysTurnOf` says of the system. -/
theorem sysTurnOf_cases (σ : System) :
    (sysTurnOf σ = .slowTick ∧ slowIsNext σ = true) ∨
    (slowIsNext σ = false ∧
      ((sysTurnOf σ = .host ∧ σ.block.pendingOps = [] ∧ σ.block.serK = none ∧ timerIsNext σ.block = false) ∨
       (sysTurnOf σ = .block ∧ (hostMayMove σ.block = false ∨ timerIsNext σ.block = true)))) := by
  cases hs : slowIsNext σ with
  | true => exact .inl ⟨by simp [sysTurnOf, hs], rfl⟩
  | false =>
    refine .inr ⟨rfl, ?_⟩
    cases hm : hostMayMove σ.block <;> cases ht : timerIsNext σ.block
    · exact .inr ⟨by simp [sysTurnOf, hs, hm], .inl rfl⟩
    · exact .inr ⟨by simp [sysTurnOf, hs, hm], .inl rfl⟩
    · simp only [hostMayMove, Bool.and_eq_true, List.isEmpty_iff, Option.isNone_iff_eq_none] at hm
      exact .inl ⟨by simp [sysTurnOf, hs, hostMayMove, hm, ht], hm.1, hm.2, rfl⟩
    · exact .inr ⟨by simp [sysTurnOf, hs, hm, ht], .inr rfl⟩

theorem goOn_next {σ τ : System} (h : goOn σ = .next τ) : τ = σ := by
  unfold goOn at h
  cases hg : gated σ.block (.next σ.block) with
  | next t =>
    rw [hg] at h; cases h
    cases (gated_next_iff.1 hg).2
    rfl
  | fault f => rw [hg] at h; cases h
  | refused r => rw [hg] at h; cases h

/-- Everything a turn of the whole display can do. -/
theorem systemStep_next_cases {inp : Inputs} {σ τ : System} (h : systemStep inp σ = .next τ) :
    (sysTurnOf σ = .slowTick ∧ τ = slowTurn σ) ∨ (sysTurnOf σ = .host ∧ τ = hostTurn inp σ) ∨
    (sysTurnOf σ = .block ∧ ∃ t, step σ.block = .next t ∧ τ = { countSlow σ with block := t }) := by
  unfold systemStep at h
  split at h
  · exact .inl ⟨‹_›, goOn_next h⟩
  · refine .inr (.inr ⟨‹_›, ?_⟩)
    cases hs : step σ.block with
    | next t => rw [hs] at h; cases h; exact ⟨t, rfl, rfl⟩
    | fault f => rw [hs] at h; cases h
    | refused r => rw [hs] at h; cases h
  · exact .inr (.inl ⟨‹_›, goOn_next h⟩)

/-- A run of some turns and then of others. -/
theorem systemRun_append {a : List Inputs} (b : List Inputs) {σ τ : System} (h : systemRun a σ = .next τ) :
    systemRun (a ++ b) σ = systemRun b τ := by
  induction a generalizing σ with
  | nil => cases h; rfl
  | cons t ts ih =>
    simp only [List.cons_append, systemRun] at *
    cases hs : systemStep t σ with
    | next u => rw [hs] at h; exact ih h
    | fault f => simp [hs] at h
    | refused r => simp [hs] at h

theorem systemRun_cons_of_next {inp : Inputs} {inps : List Inputs} {σ τ : System} (h : systemStep inp σ = .next τ) :
    systemRun (inp :: inps) σ = systemRun inps τ := by simp only [systemRun, h]

/-! ### Turns in which neither timer moves -/

/-- Numbers drawn that leave `n` turns leave them. -/
theorem TimersLeave.of_some {n : Nat} {σ : System}
    (h1 : σ.block.rfRun = false ∨ ∃ m, σ.block.fireIn = some m ∧ n ≤ m)
    (h2 : σ.ref.slowRun = false ∨ ∃ m, σ.slowIn = some m ∧ n ≤ m) : TimersLeave n σ := by
  refine ⟨h1.imp_right ?_, h2.imp_right ?_⟩
  · rintro ⟨m, h, hm⟩; simpa [turnsBeforeFire, h] using hm
  · rintro ⟨m, h, hm⟩; simpa [turnsBeforeTick, h] using hm

/-- What the count of a turn leaves where both timers leave at least one. -/
theorem TimersLeave.count {n : Nat} {σ : System} (ho : σ.block.isOpen) (h : TimersLeave (n + 1) σ) :
    timerIsNext σ.block = false ∧ slowIsNext σ = false ∧
    (σ.block.rfRun = false ∨ ∃ m, (countTurn σ.block).fireIn = some m ∧ n ≤ m) ∧
    (σ.ref.slowRun = false ∨ ∃ m, (countSlow σ).slowIn = some m ∧ n ≤ m) := by
  obtain ⟨h1, h2⟩ := h
  refine ⟨?_, ?_, ?_, ?_⟩
  · obtain h | h := h1
    · simp [timerIsNext, h]
    · simp [timerIsNext, show turnsBeforeFire σ.block ≠ 0 by omega]
  · obtain h | h := h2
    · simp [slowIsNext, h]
    · simp [slowIsNext, show turnsBeforeTick σ ≠ 0 by omega]
  · cases hr : σ.block.rfRun with
    | false => exact .inl rfl
    | true =>
      obtain h | h := h1
      · simp [hr] at h
      · exact .inr ⟨turnsBeforeFire σ.block - 1, by simp [countTurn, hr, ho.1], by omega⟩
  · cases hr : σ.ref.slowRun with
    | false => exact .inl rfl
    | true =>
      obtain h | h := h2
      · simp [hr] at h
      · exact .inr ⟨_, countSlow_slowIn hr, by omega⟩

/-- A host's turn while both timers leave it. -/
theorem systemStep_host_quiet {n : Nat} {inp : Inputs} {σ : System} (ho : σ.block.isOpen) (hk : σ.block.serK = none)
    (hp : σ.block.pendingOps = []) (hr : (hostTurn inp σ).ref.slowRun = σ.ref.slowRun) (h : TimersLeave (n + 1) σ) :
    systemStep inp σ = .next (hostTurn inp σ) ∧ TimersLeave n (hostTurn inp σ) := by
  obtain ⟨h1, h2, h3, h4⟩ := h.count ho
  refine ⟨?_, .of_some (by simpa [hostTurn] using h3) (by rw [hr]; exact h4)⟩
  have ht : sysTurnOf σ = .host := by simp [sysTurnOf, h1, h2, hostMayMove, hk, hp]
  simp only [systemStep, ht]
  exact goOn_of_isOpen (by simpa [hostTurn, State.isOpen] using ho)

/-- The block performs the operation issued, while both timers leave the turn. -/
theorem systemStep_issue_quiet {n : Nat} {inp : Inputs} {σ : System} {w : OpWord} {i : Instr} {t : State} (ho : σ.block.isOpen)
    (hk : σ.block.serK = none) (hp : σ.block.pendingOps = [w]) (hd : decode w = .ok i)
    (ht : exec i { countTurn σ.block with pendingOps := [] } = .next t) (hr : t.rfRun = σ.block.rfRun)
    (hf : t.fireIn = (countTurn σ.block).fireIn) (h : TimersLeave (n + 1) σ) :
    systemStep inp σ = .next { countSlow σ with block := t } ∧ TimersLeave n { countSlow σ with block := t } := by
  obtain ⟨h1, h2, h3, h4⟩ := h.count ho
  refine ⟨?_, .of_some (by simpa [hr, hf] using h3) (by simpa using h4)⟩
  have hs : sysTurnOf σ = .block := by simp [sysTurnOf, h2, hostMayMove, hp]
  simp only [systemStep, hs]
  rw [step_of_isOpen ho, turnOf_of_not_timer h1, hk, hp]
  simp only [takeTurn, issue, hd]
  rw [gated_of_isOpen (by simpa [State.isOpen] using ho), ht]
  rfl

/-- One serializer write, while both timers leave the turn. -/
theorem systemStep_write_quiet {n : Nat} {inp : Inputs} {σ : System} {j : Fin 50} (ho : σ.block.isOpen)
    (hk : σ.block.serK = some j) (h : TimersLeave (n + 1) σ) :
    systemStep inp σ = .next { countSlow σ with block := serializerStep j (countTurn σ.block) } ∧
    TimersLeave n { countSlow σ with block := serializerStep j (countTurn σ.block) } := by
  obtain ⟨h1, h2, h3, h4⟩ := h.count ho
  refine ⟨?_, .of_some (by simpa using h3) (by simpa using h4)⟩
  have hs : sysTurnOf σ = .block := by simp [sysTurnOf, h2, hostMayMove, hk]
  simp only [systemStep, hs]
  rw [step_of_isOpen ho, turnOf_of_not_timer h1, hk]
  rfl

/-- A call's writes, while both timers leave the turns: the block takes its serializer steps and the host stands still. -/
theorem systemRun_writes_quiet {k : Nat} (inps : List Inputs) {σ : System} (ho : σ.block.isOpen)
    (hm : ∀ m, m < inps.length → (serializerTurns m σ.block).serK ≠ none) (h : TimersLeave (inps.length + k) σ) :
    ∃ τ f, systemRun inps σ = .next τ ∧ τ.block = { serializerTurns inps.length σ.block with fireIn := f } ∧
      τ.ref = σ.ref ∧ TimersLeave k τ := by
  induction inps generalizing σ with
  | nil => exact ⟨σ, σ.block.fireIn, rfl, rfl, rfl, by simpa using h⟩
  | cons inp inps ih =>
    obtain ⟨j, hk⟩ := Option.ne_none_iff_exists'.1 (hm 0 (by simp))
    have hk : σ.block.serK = some j := hk
    obtain ⟨hs, hL⟩ := systemStep_write_quiet (n := inps.length + k) (inp := inp) ho hk
      (by convert h using 1; simp only [List.length_cons]; omega)
    have hc : countTurn σ.block = { σ.block with fireIn := (countTurn σ.block).fireIn } := by unfold countTurn; split <;> rfl
    have hsr : ∀ m, serializerTurns m (serializerStep j (countTurn σ.block)) =
        { serializerTurns (m + 1) σ.block with fireIn := (countTurn σ.block).fireIn } := fun m => by
      rw [hc, serializerStep_setFireIn, serializerTurns_setFireIn]; simp [serializerTurns, serializerTurn_of_some hk]
    obtain ⟨τ, f, h1, h2, h3, h4⟩ := ih (σ := { countSlow σ with block := serializerStep j (countTurn σ.block) })
      (by simpa [State.isOpen] using ho) (fun m hlt => by rw [hsr]; exact hm (m + 1) (by simpa using hlt)) hL
    exact ⟨τ, f, (systemRun_cons_of_next hs).trans h1, by rw [h2, hsr]; rfl, by simpa using h3, h4⟩

theorem ofNat_le_nine {n : Nat} (h : n ≤ 9) : (BitVec.ofNat 4 n : Digit) ≤ 9 := by
  simp [BitVec.le_def]; omega

/-- The digit stage on a number 0 to 9. -/
theorem digitStageWith_ofNat (T : Digit → Byte) {n : Nat} (h : n ≤ 9) :
    digitStageWith T (BitVec.ofNat 4 n) = some (T (BitVec.ofNat 4 n)) := if_pos (ofNat_le_nine h)

theorem centivolts_le (a : Reading) : centivolts a ≤ 999 := Nat.min_le_right _ _

theorem digitEnable_getLsbD (i : Fin 4) (k : Fin 8) :
    (Config.digitEnable i).getLsbD k =
      (k != Config.enableLine i && (Config.isDigitLine k || (Config.offLineBits i).getLsbD k)) := by
  simp [Config.digitEnable]

/-- The constraint of R7 on `DIGIT_ENABLE`, whatever the free values are. -/
theorem digitEnable_assertsExactlyOne (i : Fin 4) : Config.AssertsExactlyOne Config.digitLines (Config.digitEnable i) := by
  have hmem : Config.enableLine i ∈ Config.digitLines := by
    simp only [Config.digitLines, List.mem_filter, List.mem_finRange, true_and, Config.isDigitLine, Bool.or_eq_true,
      List.any_eq_true, beq_iff_eq]
    exact .inr ⟨i, rfl⟩
  have hnd : Config.digitLines.Nodup := (List.nodup_finRange 8).filter _
  have hf : ∀ k ∈ Config.digitLines, decide ((Config.digitEnable i).getLsbD k = false) = (k == Config.enableLine i) := by
    intro k hk
    have hl : Config.isDigitLine k = true := (List.mem_filter.1 hk).2
    rw [digitEnable_getLsbD, hl]
    by_cases h : k = Config.enableLine i <;> simp [h]
  rw [Config.AssertsExactlyOne, List.filter_congr hf, ← List.countP_eq_length_filter]
  exact List.count_eq_one_of_mem hnd hmem

end Sys2Proof.Safety
end

