-- ==== Sys2Proof/Tests/Slice0.lean ====
section
/-!
SUPPORT. Tests. Expected values come from spec/30_encoding.md R50, R59 and spec/95_test_vectors.md; each is one step or one decode. Then
the witnesses: for every statement with hypotheses, a concrete state and operands that meet them.
-/

namespace Sys2Proof.Tests

open Sys2Proof Sys2Proof.Machine Sys2Proof.Safety

/-! ### Well-formedness: an ill-formed written operation for each check (R59) -/

theorem test_wf_encode : AsmOp.wf (.encode 16) = false ∧ AsmOp.wf (.encode 15) = true := by decide
theorem test_wf_withColon : AsmOp.wf (.withColon 256) = false ∧ AsmOp.wf (.withColon 255) = true := by decide
theorem test_wf_withDecimal : AsmOp.wf (.withDecimal 256) = false ∧ AsmOp.wf (.withDecimal 255) = true := by decide
theorem test_wf_shiftOut_s : AsmOp.wf (.shiftOut 256 0) = false := by decide
theorem test_wf_shiftOut_e : AsmOp.wf (.shiftOut 0 256) = false ∧ AsmOp.wf (.shiftOut 255 255) = true := by decide
theorem test_ill_formed_has_no_word : assembleOp (.encode 16) = .error .outOfRange := by decide

/-! ### Words written out bit by bit: OP, then A, then B (R50) -/

theorem test_decode_encode : decode 0b000000010000000000001001 = .ok (.encode 9) := by decide
theorem test_decode_encode_out_of_range : decode 0b000000010000000000001111 = .ok (.encode 15) := by decide
theorem test_decode_withColon : decode 0b000000100000000011000000 = .ok (.withColon 0xC0) := by decide
theorem test_decode_withDecimal : decode 0b000000110000000011111001 = .ok (.withDecimal 0xF9) := by decide
theorem test_decode_blank : decode 0b000001000000000000000000 = .ok .blank := by decide
theorem test_decode_shiftOut : decode 0b000001011100000011111110 = .ok (.shiftOut 0xC0 0xFE) := by decide
theorem test_decode_startRefresh : decode 0b000001100000000000000000 = .ok .startRefresh := by decide
theorem test_decode_takeRefresh : decode 0b000001110000000000000000 = .ok .takeRefresh := by decide

/-- R120: `B[7:4] = 1` makes the word illegal before the digit's range is looked at. -/
theorem test_decode_illegal_before_range : decode 0x01001A = .error (.fieldNotZero 0x01) := by decide
theorem test_decode_zero : decode 0x000000 = .error (.noSuchOperation 0x00) := by decide
theorem test_table_word : decodeTableWord 24 0x05A55A = some (.shiftOut 0xA5 0x5A) := by decide

/-! ### The assembler (R59) -/

theorem test_assemble_hex : assembleLine "shiftOut 0x24, 0xFD ; one digit".toList = .ok (some 0x0524FD) := by decide
theorem test_assemble_decimal : assembleLine "encode 12".toList = .ok (some 0x01000C) := by decide
theorem test_assemble_comment : assembleLine "  ; nothing".toList = .ok none := by decide
theorem test_assemble_operand_count : assembleLine "blank 0".toList = .error .wrongOperands := by decide

/-! ### One operation each, from reset (95_test_vectors.md, 2.2 to 2.6) -/

/-- The state from which the host issues `w`, right after reset. -/
def about (w : Nat) : State := State.reset.withFetchWord 24 w

/-- Does a step of `s` answer a next state that `p` holds of? -/
def after (s : State) (p : State → Bool) : Bool :=
  match step s with
  | .next t => p t
  | .fault _ => false
  | .refused _ => false

theorem test_encode_zero : after (about 0x010000) (fun t => t.returned = some (.pattern 0xC0)) = true := by decide
theorem test_encode_ten : after (about 0x01000A) (fun t => t.fault = some (.digitRange 10) ∧ t.returned = none) = true := by
  decide
theorem test_withColon : after (about 0x0200C0) (fun t => t.returned = some (.pattern 0x40)) = true := by decide
theorem test_withColon_keeps : after (about 0x020040) (fun t => t.returned = some (.pattern 0x40)) = true := by decide
theorem test_withDecimal : after (about 0x0300F9) (fun t => t.returned = some (.pattern 0x79)) = true := by decide
theorem test_blank : after (about 0x040000) (fun t => t.returned = some (.pattern 0xFF)) = true := by decide
theorem test_shiftOut_issue : after (about 0x05C0FE)
    (fun t => t.serK = some 0 ∧ t.serSeg = 0xC0 ∧ t.serSel = 0xFE ∧ t.latch = .unknown ∧ t.returned = none) = true := by decide
theorem test_startRefresh : after (about 0x060000) (fun t => t.rfRun = true ∧ t.rfPend = false) = true := by decide
theorem test_takeRefresh_at_reset : after (about 0x070000) (fun t => t.returned = some (.flag false)) = true := by decide
theorem test_takeRefresh_pending :
    after { about 0x070000 with rfPend := true } (fun t => t.returned = some (.flag true) ∧ t.rfPend = false) = true := by
  decide
theorem test_illegal_word : after (about 0x000000) (fun t => t.fault = some (.illegal 0)) = true := by decide
theorem test_illegal_word_with_digit : after (about 0x01001A) (fun t => t.fault = some (.illegal 0x01001A)) = true := by decide
theorem test_fault_codes : Fault.code (.illegal 0) = 1 ∧ Fault.code (.digitRange 10) = 2 := by decide

/-- A faulted block takes no step (95_test_vectors.md, P4). -/
theorem test_faulted_block_stops :
    step { about 0x050000 with fault := some (.digitRange 12) } = .fault (.digitRange 12) := by rfl

/-! ### Single writes of a call (95_test_vectors.md, 2.4) -/

/-- A transfer of `0x24, 0xFD` before write `j`, the pins as given. -/
def sending (j : Fin 50) (latch clock data : PinLevel) : State :=
  { State.reset with serSeg := 0x24, serSel := 0xFD, serK := some j, latch := latch, clock := clock, data := data }

theorem test_first_write : after (sending 0 .unknown .unknown .unknown)
    (fun t => t.latch = .lo ∧ t.clock = .unknown ∧ t.data = .unknown ∧ t.serK = some 1) = true := by decide
theorem test_seventh_write : after (sending 7 .lo .hi .lo) (fun t => t.data = .hi ∧ t.serK = some 8) = true := by decide
theorem test_clock_edge_shifts : after (sending 9 .lo .lo .hi)
    (fun t => t.clock = .hi ∧ t.srShift[0] = some true ∧ t.srShift[1] = none) = true := by decide
theorem test_last_write_commits : after { sending 49 .lo .hi .hi with srShift := stageOf 0x24FD }
    (fun t => t.latch = .hi ∧ t.srOut = stageOf 0x24FD ∧ t.serK = none ∧ t.returned = some .noValue) = true := by decide
theorem test_stage_bits : (stageOf 0xC0FE)[15] = some true ∧ (stageOf 0xC0FE)[0] = some false := by decide

/-! ### The refresh flag's schedules (95_test_vectors.md, 2.5) -/

/-- A running timer that leaves `n` turns to the other agents. -/
def running (n : Nat) : State := { State.reset with rfRun := true, fireIn := some n }

theorem test_fire : after (running 0) (fun t => t.rfPend = true ∧ t.fireIn = none) = true := by decide
theorem test_wait_counts_down : after (running 2) (fun t => t.rfPend = false ∧ t.fireIn = some 1) = true := by decide
theorem test_fire_coalesces : after { running 0 with rfPend := true } (fun t => t.rfPend = true) = true := by decide
theorem test_fetch_word_beats_the_timer :
    after ((running 0).withFetchWord 24 0x040000) (fun t => t.returned = some (.pattern 0xFF)) = true := by decide

/-! ### The reference host (95_test_vectors.md, 1 and 2.7), with the default table -/

theorem test_time_125 : (List.finRange 4).map (fun i => planPattern Config.defaultSegTable (planTime 125 i)) =
    [some 0xC0, some 0x24, some 0xC0, some 0x92] := by decide
theorem test_time_5999 : (List.finRange 4).map (fun i => planPattern Config.defaultSegTable (planTime 5999 i)) =
    [some 0x90, some 0x10, some 0x92, some 0x90] := by decide
theorem test_voltage_165 : (List.finRange 4).map (fun i => planPattern Config.defaultSegTable (planVoltage 165 i)) =
    [some 0x79, some 0x82, some 0x92, some 0xFF] := by decide
theorem test_voltage_999 : (List.finRange 4).map (fun i => planPattern Config.defaultSegTable (planVoltage 999 i)) =
    [some 0x10, some 0x90, some 0x90, some 0xFF] := by decide
theorem test_slow_tick_wraps : (slowTick { RefHost.reset with elapsed := 5999, slowRun := true }).elapsed = 0 := by decide

/-! ### Witnesses: the hypotheses of each statement are met -/

theorem witness_LegalWordsEncodeBack : decode 0x05FFFF = .ok (.shiftOut 0xFF 0xFF) := by decide
theorem witness_WordsSelectRowsByMask :
    (0x01000F : OpWord) &&& rowMask (.encode 0) = rowMatch (.encode 0) ∧ decode 0x01000F = .ok (.encode 15) := by decide
theorem witness_AssemblerGivesTableWords :
    15 < 16 ∧ 255 < 256 ∧ AsmOp.wf (.encode 16) = false ∧ assembleOp (.shiftOut 255 255) = .ok 0x05FFFF := by decide
theorem witness_StepRunsTheDecodedOperation_host :
    (about 0x060000).isOpen ∧ timerIsNext (about 0x060000) = false ∧ (about 0x060000).serK = none ∧
    (about 0x060000).pendingOps = [0x060000] ∧ decode 0x060000 = .ok .startRefresh := by decide
theorem witness_StepRunsTheDecodedOperation_stopped : State.reset.rfRun = false := by decide
theorem witness_StepRunsTheDecodedOperation_running :
    (running 0).isOpen ∧ (running 0).rfRun = true ∧ turnsBeforeFire (running 0) = 0 ∧ turnsBeforeFire (running 1) = 1 := by decide
theorem witness_EveryTurnIsOneAgentsStep_timer : (running 0).isOpen ∧ timerIsNext (running 0) = true := by decide
theorem witness_EveryTurnIsOneAgentsStep_serializer : (sending 49 .lo .hi .hi).isOpen ∧
    timerIsNext (sending 49 .lo .hi .hi) = false ∧ (sending 49 .lo .hi .hi).serK = some 49 := by decide
theorem witness_EveryTurnIsOneAgentsStep_wait :
    State.reset.isOpen ∧ timerIsNext State.reset = false ∧ State.reset.serK = none ∧ State.reset.pendingOps = [] := by decide
theorem witness_FaultStopsEveryAgent :
    ({ State.reset with fault := some (.illegal 0) } : State).fault = some (.illegal 0) := by decide
theorem witness_RefusedMarkStopsEveryAgent : ({ State.reset with refused := true } : State).fault = none ∧
    ({ State.reset with refused := true } : State).refused = true := by decide
theorem witness_IllegalWordRecordsFault : (about 0x080000).isOpen ∧ timerIsNext (about 0x080000) = false ∧
    (about 0x080000).serK = none ∧ (about 0x080000).pendingOps = [0x080000] ∧ isIllegal 0x080000 = true := by decide
/-- The hypothesis `step s = next t` of the statements about one step, at reset. -/
theorem witness_step_answers_next : step State.reset = .next State.reset := by rfl
theorem witness_FaultComesOnlyFromTwoCauses_digit :
    after (about 0x01000A) (fun t => t.fault = some (.digitRange 10)) = true := by decide
theorem witness_BusySerializerHoldsHost : (sending 0 .unknown .unknown .unknown).isOpen ∧
    (sending 0 .unknown .unknown .unknown).serK ≠ none := by decide
/-- An open state, the hypothesis of the operations' result statements; the digits 9 and 10 are where `encode`'s clauses meet. -/
theorem witness_open_state : State.reset.isOpen ∧ (9 : Digit) ≤ 9 ∧ (9 : Digit) < 10 := by decide
theorem witness_IndicatorOnDigitFlipsBitSeven :
    Config.SegTableOk Config.defaultSegTable ∧ digitStageWith Config.defaultSegTable 9 = some 0x90 := by
  unfold Config.SegTableOk; decide
theorem witness_withColon_bit_seven_clear : (0x7F : Byte).getLsbD 7 = false := by decide
theorem witness_EncoderOperationsAreStateless : exec .blank State.reset = .next (giveBack (.pattern 0xFF) State.reset) ∧
    exec (.encode 15) State.reset = .next (raiseFault (.digitRange 15) State.reset) := ⟨rfl, rfl⟩
theorem witness_ClockEdgeShifts_levels : (sending 3 .lo .lo .lo).clock = .lo ∧ (sending 4 .lo .hi .lo).clock = .hi ∧
    State.reset.clock = .unknown := by decide
theorem witness_LatchEdgeCommits_levels : (sending 49 .lo .hi .hi).latch = .lo ∧ (sending 49 .hi .hi .hi).latch = .hi ∧
    State.reset.latch = .unknown := by decide
theorem witness_ShiftOutSendsBothBytes_stopped :
    State.reset.isOpen ∧ State.reset.serK = none ∧ LeavesTurns 50 State.reset none := ⟨by decide, rfl, .inl ⟨rfl, rfl⟩⟩
theorem witness_ShiftOutSendsBothBytes_running :
    (running 50).isOpen ∧ (running 50).serK = none ∧ LeavesTurns 50 (running 50) (some 0) :=
  ⟨by decide, rfl, .inr ⟨0, rfl, rfl, rfl⟩⟩
/-- The issue alone needs nothing of the timer: its next firing may fall inside the call. -/
theorem witness_ShiftOutSendsBothBytes_issue : (running 3).isOpen ∧ (running 3).serK = none := by decide
theorem witness_InterleavedCallIsAtomic :
    (List.replicate 25 CallTurn.write ++ [CallTurn.fire, CallTurn.fire] ++ List.replicate 25 CallTurn.write).count
      CallTurn.write = 50 := by decide
theorem witness_LatchRisesLast_bounds : 1 ≤ 1 ∧ 49 ≤ 49 ∧ (writeAt 0 0 48).pin = .clock ∧ (writeAt 0 0 2).pin = .clock ∧
    (writeAt 0 0 49).pin = .latch ∧ (writeAt 0 0 49).level = true := by decide
theorem witness_DataIsSetBeforeThePulse_bounds : 0 < 16 ∧ 15 < 16 := by decide
theorem witness_StepKeepsSerializerInv : SerializerInv State.reset ∧ step State.reset = .next State.reset :=
  ⟨fun _ h => (by cases h), by rfl⟩
theorem witness_OutputsChangeOnlyAtCommit : after { sending 49 .lo .hi .hi with srShift := stageOf 0x24FD }
    (fun t => t.srOut ≠ (sending 49 .lo .hi .hi).srOut) = true := by decide
/-- The serializer's invariant at the last write, with the transfer where the spec's trace has it. -/
theorem witness_LastWriteCommitsBothBytes :
    let s : State := { sending 49 .lo .hi .hi with srShift := stageOf 0x24FD }
    s.isOpen ∧ SerializerInv s ∧ turnOf s = .serializer 49 := by
  refine ⟨by decide, ?_, by decide⟩
  intro j h
  cases h
  exact ⟨fun _ => rfl, fun _ => by decide, fun _ => by decide, by decide⟩
theorem witness_OnlySerializerWritesPins : after (sending 0 .unknown .unknown .unknown)
    (fun t => t.latch ≠ (sending 0 .unknown .unknown .unknown).latch) = true := by decide
theorem witness_SerializerStepFrame : turnOf (sending 48 .lo .lo .hi) = .serializer 48 ∧
    turnOf (sending 49 .lo .hi .hi) = .serializer 49 ∧ after (sending 48 .lo .lo .hi) (fun _ => true) = true := by decide
theorem witness_ShiftOutWhileBusyIsRefused : (sending 0 .lo .lo .lo).isOpen ∧ (sending 0 .lo .lo .lo).serK = some 0 := by decide
theorem witness_FireAndTakeInEitherOrder :
    let s (n : Nat) : State := { running n with pendingOps := [0x070000] }
    (s 0).isOpen ∧ (s 0).rfRun = true ∧ (s 0).serK = none ∧ turnsBeforeFire (s 0) = 0 ∧ turnsBeforeFire (s 1) = 1 := by decide
theorem witness_FiresCoalesce : (running 0).isOpen ∧ (running 0).rfRun = true := by decide
theorem witness_WritersOfPending_set : (running 0).rfPend = false ∧ after (running 0) (fun t => t.rfPend = true) = true := by decide
theorem witness_WritersOfPending_clear : ({ about 0x070000 with rfPend := true } : State).rfPend = true ∧
    after { about 0x070000 with rfPend := true } (fun t => t.rfPend = false) = true := by decide
theorem witness_TimerIsNeverStopped : (about 0x060000).rfRun = false ∧
    after (about 0x060000) (fun t => t.rfRun = true) = true ∧ after (running 0) (fun _ => true) = true := by decide
theorem witness_TimerFiresWhenItsGapEnds :
    (running 0).isOpen ∧ (running 0).rfRun = true ∧ (running 0).fireIn = some 0 ∧ (running 0).pendingOps = [] ∧
    turnsBeforeFire (running 0) = 0 ∧ runs 1 (running 0) = .next (timerTurn (running 0)) :=
  ⟨by decide, rfl, rfl, rfl, rfl, rfl⟩
/-- A started timer whose gap is not drawn, as after `startRefresh` and after each fire: some number of turns is left. -/
theorem witness_TimerFiresWhenItsGapEnds_undrawn :
    ({ State.reset with rfRun := true } : State).isOpen ∧ ({ State.reset with rfRun := true } : State).fireIn = none ∧
    turnsBeforeFire { State.reset with rfRun := true } = Config.fireGap 0 := ⟨by decide, rfl, rfl⟩
theorem witness_StepKeepsQuietBeforeStart : QuietBeforeStart State.reset ∧ step State.reset = .next State.reset :=
  ⟨fun _ => rfl, by rfl⟩
theorem witness_NoRefreshBeforeStart : State.reset.isOpen ∧ QuietBeforeStart State.reset ∧ State.reset.rfRun = false :=
  ⟨by decide, fun _ => rfl, rfl⟩
theorem witness_TakeRefreshAnswersWhetherFired :
    runs 1 (running 0) = .next (timerTurn (running 0)) ∧ (running 0).rfPend = false ∧
    (∀ j u, j < 1 → runs j (running 0) = .next u → nextOperation u ≠ some .takeRefresh) ∧ (timerTurn (running 0)).isOpen := by
  refine ⟨rfl, rfl, ?_, by decide⟩
  intro j u hj hu
  obtain rfl : j = 0 := by omega
  cases hu
  decide
theorem witness_TrailingFiresKeepTheEnd : IsEnd State.reset ∧ IsEnd (running 0) := ⟨⟨rfl, rfl, rfl, rfl⟩, ⟨rfl, rfl, rfl, rfl⟩⟩
/-- The block and its host, both timers with `n` turns to leave. -/
def display (n : Nat) (s : State) (h : RefHost) : System :=
  { block := { s with rfRun := true, fireIn := some n }, ref := { h with slowRun := true }, slowIn := some n, slowDraws := 0 }

/-- What the host samples: no button pressed, the analog input at 0.5. -/
def halfway : Inputs := { resetHigh := true, modeHigh := true, analog := ⟨1 / 2, by norm_num, by norm_num⟩ }

theorem witness_reading_bounds : (0 : ℚ) ≤ 1 / 2 ∧ (1 / 2 : ℚ) ≤ 1 ∧ (0 : ℚ) ≤ 1 ∧ (1 : ℚ) ≤ 1 := by norm_num
/-- The premises of the two fairness statements of the whole display, and that the slow tick comes first where both are due. -/
theorem witness_fair_timers :
    HostInv (display 0 State.reset RefHost.reset) ∧ (display 0 State.reset RefHost.reset).block.rfRun = true ∧
    (display 0 State.reset RefHost.reset).ref.slowRun = true ∧
    turnsBeforeFire (display 0 State.reset RefHost.reset).block = 0 ∧
    turnsBeforeTick (display 0 State.reset RefHost.reset) = 0 ∧
    sysTurnOf (display 0 State.reset RefHost.reset) = .slowTick ∧
    sysTurnOf (slowTurn (display 0 State.reset RefHost.reset)) = .block :=
  ⟨⟨⟨rfl, rfl⟩, fun _ h => by cases h⟩, rfl, rfl, rfl, rfl, by rfl, by rfl⟩
theorem test_host_turn_is_counted : (sysTurnOf (display 2 State.reset RefHost.reset),
    (hostTurn halfway (display 2 State.reset RefHost.reset)).slowIn,
    (hostTurn halfway (display 2 State.reset RefHost.reset)).block.fireIn) = (.host, some 1, some 1) := by rfl
theorem witness_SlowTickWraps : ({ RefHost.reset with slowRun := true } : RefHost).slowRun = true ∧
    RefHost.reset.slowRun = false := by decide
theorem witness_HostDigitsAreInRange : (digitPlan .time 5999 halfway.analog 0).number? = some 9 := by decide
theorem witness_ResetButtonActsOnTheEdge : RefHost.reset.prevResetHigh = true ∧
    (sampleReset false RefHost.reset).prevResetHigh = false := by decide
theorem witness_RefreshesGoRoundRobin : ({ RefHost.reset with phase := .patterned } : RefHost).phase = .patterned ∧
    ({ RefHost.reset with phase := .encoded .off } : RefHost).phase = .encoded .off ∧ ({ RefHost.reset with phase := .shifting } : RefHost).phase = .shifting := ⟨rfl, rfl, rfl⟩
/-- A host that has been answered 1 in `mode` at digit `i`. -/
def answered (mode : DisplayMode) (i : Fin 4) : System :=
  display 57 { State.reset with returned := some (.flag true) } { RefHost.reset with phase := .took mode, activeDigit := i }
theorem witness_RefreshDrivesOneDigit_time :
    (answered .time 1).block.isOpen ∧ (answered .time 1).block.serK = none ∧ (answered .time 1).block.pendingOps = [] ∧
    (answered .time 1).block.returned = some (.flag true) ∧ (answered .time 1).ref.phase = .took .time ∧
    (∃ n, digitPlan .time (answered .time 1).ref.elapsed halfway.analog 1 = .colon n ∧
      TimersLeave (refreshTurns (.colon n)) (answered .time 1) ∧ (List.replicate 56 halfway).length + 1 = refreshTurns (.colon n)) :=
  ⟨⟨rfl, rfl⟩, rfl, rfl, rfl, rfl, _, rfl, ⟨.inr (Nat.le_refl 57), .inr (Nat.le_refl 57)⟩, rfl⟩
theorem witness_RefreshDrivesOneDigit_voltage :
    (answered .voltage 3).ref.phase = .took .voltage ∧
    digitPlan .voltage (answered .voltage 3).ref.elapsed halfway.analog 3 = .blank ∧
    TimersLeave (refreshTurns .blank) (answered .voltage 3) ∧ (List.replicate 54 halfway).length + 1 = refreshTurns .blank :=
  ⟨rfl, rfl, ⟨.inr (by decide), .inr (by decide)⟩, rfl⟩
/-- The reference host's invariant with an operation waiting. -/
theorem witness_ReferenceHostNeverFaults :
    HostInv { System.reset with block := { State.reset with pendingOps := [0x010009] } } := by
  refine ⟨⟨rfl, rfl⟩, ?_⟩
  intro w hw
  obtain rfl : w = 0x010009 := by simpa using hw
  exact ⟨.encode 9, by decide, by show (9 : Digit) ≤ 9; decide⟩

end Sys2Proof.Tests
end

section
/-!
PROOF. The pins and the external register's stages belong to the serializer (spec/10_state.md R20): the turn of every
other agent leaves all five as they are.
-/

namespace Sys2Proof.Safety

open Sys2Proof.Machine

/-- `t` has the pins and the two register stages of `s`. -/
structure SamePinsAndStages (s t : State) : Prop where
  latch : t.latch = s.latch
  clock : t.clock = s.clock
  data : t.data = s.data
  srShift : t.srShift = s.srShift
  srOut : t.srOut = s.srOut

theorem SamePinsAndStages.trans {s u t : State} (h : SamePinsAndStages s u) (h' : SamePinsAndStages u t) :
    SamePinsAndStages s t :=
  ⟨h'.latch.trans h.latch, h'.clock.trans h.clock, h'.data.trans h.data, h'.srShift.trans h.srShift,
    h'.srOut.trans h.srOut⟩

theorem timerTurn_samePinsAndStages (s : State) : SamePinsAndStages s (timerTurn s) := ⟨rfl, rfl, rfl, rfl, rfl⟩

theorem countTurn_samePinsAndStages (s : State) : SamePinsAndStages s (countTurn s) :=
  ⟨countTurn_latch s, countTurn_clock s, countTurn_data s, countTurn_srShift s, countTurn_srOut s⟩

/-- No operation drives a pin itself: `shiftOut` only starts the transfer. -/
theorem exec_samePinsAndStages {i : Instr} {s t : State} (h : exec i s = .next t) : SamePinsAndStages s t := by
  obtain ⟨-, ⟨p, rfl, -⟩ | ⟨d, -, -, rfl⟩ | ⟨seg, sel, -, -, rfl⟩ | ⟨-, rfl⟩ | ⟨-, rfl⟩⟩ := exec_next_cases h <;>
    exact ⟨rfl, rfl, rfl, rfl, rfl⟩

/-- A step is the serializer's, or it leaves the pins and stages alone. -/
theorem step_serializer_or_samePinsAndStages {s t : State} (h : step s = .next t) :
    (∃ j, turnOf s = .serializer j) ∨ SamePinsAndStages s t := by
  have taken (ws : List OpWord) : SamePinsAndStages s { countTurn s with pendingOps := ws } :=
    (countTurn_samePinsAndStages s).trans ⟨rfl, rfl, rfl, rfl, rfl⟩
  obtain ⟨-, ⟨-, -, rfl⟩ | ⟨j, hj, -⟩ | ⟨w, ws, -, -, -, ⟨i, -, hi⟩ | ⟨e, -, rfl⟩⟩ | ⟨-, -, -, rfl⟩⟩ :=
    step_next_cases h
  · exact .inr (timerTurn_samePinsAndStages s)
  · exact .inl ⟨j, hj⟩
  · exact .inr ((taken ws).trans (exec_samePinsAndStages hi))
  · exact .inr ((taken ws).trans ⟨rfl, rfl, rfl, rfl, rfl⟩)
  · exact .inr (countTurn_samePinsAndStages s)

/-- Settles O35: a step that is not the serializer's leaves the pins and the shift stage alone, so one that changed
any of them was the serializer's. -/
theorem onlySerializerWritesPins : Obligations.OnlySerializerWritesPins := by
  intro s t h changed
  obtain serializer | same := step_serializer_or_samePinsAndStages h
  · exact serializer
  · simp [same.latch, same.clock, same.data, same.srShift] at changed

end Sys2Proof.Safety
end

section
/-!
PROOF. The data writes of a call, in order (spec/20_memory.md R37, spec/41_serializer.md R71): a call is the latch
going low, sixteen groups of three writes, one group for each bit of the stream, and the latch going high.
-/

namespace Sys2Proof.Machine

/-- The three writes that send bit `i` of the stream (R72). -/
def bitWrites (seg sel : Byte) (i : Nat) : List PinWrite :=
  [⟨.data, streamBit seg sel i⟩, ⟨.clock, false⟩, ⟨.clock, true⟩]

theorem map_writeAt_eq_bitWrites (seg sel : Byte) {i : Nat} (h : i < 16) :
    [3 * i + 1, 3 * i + 2, 3 * i + 3].map (writeAt seg sel) = bitWrites seg sel i := by
  simp [bitWrites, writeAt_data _ _ h, writeAt_clockLow _ _ h, writeAt_clockHigh _ _ h]

theorem range_fifty_eq_bit_groups :
    List.range 50 = 0 :: (List.range 16).flatMap (fun i => [3 * i + 1, 3 * i + 2, 3 * i + 3]) ++ [49] := by decide

theorem writes_eq_bitWrites (seg sel : Byte) :
    writes seg sel = ⟨.latch, false⟩ :: (List.range 16).flatMap (bitWrites seg sel) ++ [⟨.latch, true⟩] := by
  have groups : ((List.range 16).flatMap fun i => [3 * i + 1, 3 * i + 2, 3 * i + 3].map (writeAt seg sel)) =
      (List.range 16).flatMap (bitWrites seg sel) :=
    List.flatMap_congr fun _ hi => map_writeAt_eq_bitWrites seg sel (List.mem_range.mp hi)
  rw [writes, range_fifty_eq_bit_groups, List.map_append, List.map_cons, List.map_flatMap, groups]
  simp

theorem bitWrites_filter_data (seg sel : Byte) (i : Nat) :
    (bitWrites seg sel i).filter (fun w => w.pin = .data) = [⟨.data, streamBit seg sel i⟩] := rfl

/-- The levels of a call's data writes are the stream. -/
theorem writes_data_levels (seg sel : Byte) :
    ((writes seg sel).filter fun w => w.pin = .data).map PinWrite.level = (List.range 16).map (streamBit seg sel) := by
  rw [writes_eq_bitWrites, List.map_eq_flatMap (f := streamBit seg sel)]
  simp [List.filter_flatMap, List.map_flatMap, bitWrites_filter_data]

/-- The stream is the first byte from bit 7 down to bit 0, then the second (R71). -/
theorem map_streamBit_range (seg sel : Byte) :
    (List.range 16).map (streamBit seg sel) =
      ([7, 6, 5, 4, 3, 2, 1, 0].map fun k => seg.getLsbD k) ++
        ([7, 6, 5, 4, 3, 2, 1, 0].map fun k => sel.getLsbD k) := rfl

/-- Settles O21: the data writes carry the stream, and the stream is the two bytes with bit 7 first. -/
theorem bytesGoOutMsbFirst : Obligations.BytesGoOutMsbFirst := fun seg sel =>
  (writes_data_levels seg sel).trans (map_streamBit_range seg sel)

end Sys2Proof.Machine
end

section
/-!
PROOF. The encoder's operations, uniformly (spec/40_encoder.md R67): each has one result and one value of `FAULT` that
it answers in every open state, and nothing else of the state moves.
-/

namespace Sys2Proof.Machine

/-- Whatever the state, `i` has a next state exactly where the block is open: the state with `r` handed back and `f`
in `FAULT`. -/
def AlwaysAnswers (i : Instr) (r : Option ReturnValue) (f : Option Fault) : Prop :=
  ∀ s t : State, exec i s = .next t ↔ s.isOpen ∧ t = { s with returned := r, fault := f }

theorem AlwaysAnswers.exec_eq {i : Instr} {r : Option ReturnValue} {f : Option Fault} (h : AlwaysAnswers i r f)
    {s : State} (ho : s.isOpen) : exec i s = .next { s with returned := r, fault := f } :=
  (h s _).2 ⟨ho, rfl⟩

theorem giveBack_eq_of_isOpen {s : State} (ho : s.isOpen) (v : ReturnValue) :
    giveBack v s = { s with returned := some v, fault := none } := by
  rw [giveBack, ← ho.1]

/-- An operation that only hands back `v` always answers `v` and no fault. -/
theorem alwaysAnswers_of_giveBack {i : Instr} {v : ReturnValue}
    (h : ∀ s t : State, exec i s = .next t ↔ s.isOpen ∧ t = giveBack v s) : AlwaysAnswers i (some v) none :=
  fun s t => (h s t).trans (and_congr_right fun ho => by rw [giveBack_eq_of_isOpen ho])

theorem alwaysAnswers_encode_of_le {d : Digit} (hd : d ≤ 9) :
    AlwaysAnswers (.encode d) (some (.pattern (Config.segTable d))) none :=
  alwaysAnswers_of_giveBack fun _ _ => execEncode_next_iff.trans (by simp only [hd, true_and, not_true_eq_false, false_and, or_false])

theorem alwaysAnswers_encode_of_not_le {d : Digit} (hd : ¬ d ≤ 9) :
    AlwaysAnswers (.encode d) none (some (.digitRange d)) :=
  fun _ _ => execEncode_next_iff.trans (by simp only [hd, false_and, false_or, not_false_eq_true, true_and, raiseFault])

theorem alwaysAnswers_withColon (p : Byte) :
    AlwaysAnswers (.withColon p) (some (.pattern (indicatorStage p))) none :=
  alwaysAnswers_of_giveBack fun _ _ => execWithColon_next_iff

theorem alwaysAnswers_withDecimal (p : Byte) :
    AlwaysAnswers (.withDecimal p) (some (.pattern (indicatorStage p))) none :=
  alwaysAnswers_of_giveBack fun _ _ => execWithDecimal_next_iff

theorem alwaysAnswers_blank : AlwaysAnswers .blank (some (.pattern blankPattern)) none :=
  alwaysAnswers_of_giveBack fun _ _ => execBlank_next_iff

/-- Every operation of the encoder always answers one result and one `FAULT`, no fault but for a digit above 9. -/
theorem exists_alwaysAnswers_of_encoder {i : Instr}
    (hi : (∃ d, i = .encode d) ∨ (∃ p, i = .withColon p) ∨ (∃ p, i = .withDecimal p) ∨ i = .blank) :
    ∃ r f, AlwaysAnswers i r f ∧ ((∀ d, i = .encode d → d ≤ 9) → f = none) := by
  obtain ⟨d, rfl⟩ | ⟨p, rfl⟩ | ⟨p, rfl⟩ | rfl := hi
  · by_cases hd : d ≤ 9
    · exact ⟨_, _, alwaysAnswers_encode_of_le hd, fun _ => rfl⟩
    · exact ⟨_, _, alwaysAnswers_encode_of_not_le hd, fun inRange => absurd (inRange d rfl) hd⟩
  · exact ⟨_, _, alwaysAnswers_withColon p, fun _ => rfl⟩
  · exact ⟨_, _, alwaysAnswers_withDecimal p, fun _ => rfl⟩
  · exact ⟨_, _, alwaysAnswers_blank, fun _ => rfl⟩

/-- Settles O20: the operation's one result and one `FAULT` give completion, the frame and the independence at once. -/
theorem encoderOperationsAreStateless : Obligations.EncoderOperationsAreStateless := by
  intro i hi
  obtain ⟨r, f, answers, faultFree⟩ := exists_alwaysAnswers_of_encoder hi
  refine ⟨fun s ho => ⟨_, answers.exec_eq ho⟩, fun s t s' t' h h' => ?_⟩
  obtain ⟨ho, rfl⟩ := (answers s t).1 h
  obtain ⟨-, rfl⟩ := (answers s' t').1 h'
  exact ⟨rfl, fun inRange => (faultFree inRange).trans ho.1.symm, rfl, rfl⟩

end Sys2Proof.Machine
end

section
/-!
PROOF. The results of `encode`, `withColon` and `withDecimal` and their words (spec/40_encoder.md R62 to R65,
spec/30_encoding.md R59).
-/

namespace Sys2Proof

/-! ### The words -/

@[simp] theorem bHigh_packWord (op a : Byte) (high low : BitVec 4) : bHigh (packWord op a (high ++ low)) = high := by
  rw [bHigh, bField_packWord]; exact BitVec.extractLsb'_append_eq_left

@[simp] theorem bDigit_packWord (op a : Byte) (high low : BitVec 4) : bDigit (packWord op a (high ++ low)) = low := by
  rw [bDigit, bField_packWord]; exact BitVec.extractLsb'_append_eq_right

theorem decode_packWord_encode (d : Digit) : decode (packWord 0x01 0 (0#4 ++ d)) = .ok (.encode d) := by
  simp [decode, acceptIf]

theorem decode_packWord_withColon (p : Byte) : decode (packWord 0x02 0 p) = .ok (.withColon p) := by
  simp [decode, acceptIf]

theorem decode_packWord_withDecimal (p : Byte) : decode (packWord 0x03 0 p) = .ok (.withDecimal p) := by
  simp [decode, acceptIf]

end Sys2Proof

namespace Sys2Proof.Machine

/-! ### The table and the indicator stage -/

/-- Bit 7, the indicator's, is off in every entry of the table, whatever the free bits are (R62). -/
theorem segTable_getLsbD_seven (d : Digit) : (Config.segTable d).getLsbD 7 = true := by
  unfold Config.segTable
  split
  · rfl
  · split
    · rfl
    · exact BitVec.getLsbD_append.trans (by simp)

theorem indicatorStage_getLsbD_seven (p : Byte) : (indicatorStage p).getLsbD 7 = false :=
  indicatorStage_getLsbD p 7

theorem indicatorStage_getLsbD_of_lt (p : Byte) {k : Nat} (hk : k < 7) :
    (indicatorStage p).getLsbD k = p.getLsbD k :=
  (indicatorStage_getLsbD p k).trans (if_pos hk)

/-- The indicator stage keeps a pattern whose bit 7 is 0 already. -/
theorem indicatorStage_eq_self {p : Byte} (h : p.getLsbD 7 = false) : indicatorStage p = p := by
  refine BitVec.eq_of_getLsbD_eq fun k hk => ?_
  rcases Nat.lt_succ_iff_lt_or_eq.1 hk with below | rfl
  · exact indicatorStage_getLsbD_of_lt p below
  · rw [indicatorStage_getLsbD_seven, h]

theorem indicatorStage_idem (p : Byte) : indicatorStage (indicatorStage p) = indicatorStage p :=
  indicatorStage_eq_self (indicatorStage_getLsbD_seven p)

/-! ### The results -/

/-- An operation that always answers a result and no fault leaves `FAULT` out of the record it changes. -/
theorem AlwaysAnswers.exec_eq_returned {i : Instr} {r : Option ReturnValue} (h : AlwaysAnswers i r none) {s : State}
    (ho : s.isOpen) : exec i s = .next { s with returned := r } := by
  rw [h.exec_eq ho, ← ho.1]

/-- Settles O15: the table's entry for a digit 0 to 9, of which 0 and 9 are two, and the fault above 9. -/
theorem encodeMapsDigits : Obligations.EncodeMapsDigits := by
  intro s d ho
  have mapped {n : Digit} (hn : n ≤ 9) := (alwaysAnswers_encode_of_le hn).exec_eq_returned ho
  have faulted (hd : 9 < d) := (alwaysAnswers_encode_of_not_le (BitVec.not_le.2 hd)).exec_eq ho
  exact ⟨fun hd => ⟨mapped hd, segTable_getLsbD_seven d⟩, faulted, mapped (n := 0) (by decide),
    mapped (n := 9) (by decide), decode_packWord_encode d⟩

/-- Settles O16: `withColon` hands back the indicator stage's output, which is kept when it is given again. -/
theorem withColonClearsBitSeven : Obligations.WithColonClearsBitSeven := by
  intro s p ho
  have result (q : Byte) := (alwaysAnswers_withColon q).exec_eq_returned ho
  have again := result (indicatorStage p)
  rw [indicatorStage_idem] at again
  exact ⟨indicatorStage p, result p, rfl, indicatorStage_getLsbD_seven p, fun _ => indicatorStage_getLsbD_of_lt p,
    indicatorStage_eq_self, again, decode_packWord_withColon p⟩

/-- Settles O17: `withDecimal` hands back the same indicator stage's output as `withColon`. -/
theorem withDecimalClearsBitSeven : Obligations.WithDecimalClearsBitSeven := by
  intro s p ho
  have result := (alwaysAnswers_withDecimal p).exec_eq_returned ho
  have colon := (alwaysAnswers_withColon p).exec_eq_returned ho
  exact ⟨indicatorStage p, result, rfl, indicatorStage_getLsbD_seven p, fun _ => indicatorStage_getLsbD_of_lt p,
    indicatorStage_eq_self, colon.trans result.symm, decode_packWord_withDecimal p⟩

end Sys2Proof.Machine
end

section
/-!
PROOF. The 50 writes by index and the latch between them (spec/41_serializer.md R72, R76).
-/

namespace Sys2Proof.Machine

open Sys2Proof.Safety

@[simp] theorem writes_length (seg sel : Byte) : (writes seg sel).length = 50 := by simp [writes]

theorem writes_getElem? (seg sel : Byte) {j : Nat} (hj : j < 50) :
    (writes seg sel)[j]? = some (writeAt seg sel j) := by
  simp [writes, List.getElem?_range hj]

/-- Settles O22: the write at an index is the closed form's there, and bit `i` of the stream is bit `15 - i` of the
two bytes. -/
theorem fiftyWritesInOrder : Obligations.FiftyWritesInOrder := by
  intro seg sel
  have at_index {j : Nat} {w : PinWrite} (hj : j < 50) (hw : writeAt seg sel j = w) : (writes seg sel)[j]? = some w :=
    (writes_getElem? seg sel hj).trans (congrArg some hw)
  refine ⟨writes_length seg sel, at_index (by decide) (writeAt_first seg sel), fun i hi => ?_,
    at_index (by decide) (writeAt_last seg sel)⟩
  rw [← streamBit_eq seg sel hi, Nat.add_comm 1, Nat.add_comm 2, Nat.add_comm 3]
  exact ⟨at_index (by omega) (writeAt_data seg sel hi), at_index (by omega) (writeAt_clockLow seg sel hi),
    at_index (by omega) (writeAt_clockHigh seg sel hi)⟩

/-- The latch writes of a call are the first, to 0, and the last, to 1 (R72). -/
theorem writeAt_pin_eq_latch_iff (seg sel : Byte) {j : Nat} (hj : j < 50) :
    (writeAt seg sel j).pin = .latch ↔ j = 0 ∨ j = 49 := by
  obtain h | h | ⟨i, hi, h | h | h⟩ := index_cases ⟨j, hj⟩ <;> obtain rfl : j = _ := h
  · simp
  · simp
  · simp [writeAt_data seg sel hi]; omega
  · simp [writeAt_clockLow seg sel hi]; omega
  · simp [writeAt_clockHigh seg sel hi]; omega

/-- The latch is low after each write of a call but the last (R76). -/
theorem serializerTurns_startTransfer_latch (seg sel : Byte) (s : State) {n : Nat} (h1 : 1 ≤ n) (h49 : n ≤ 49) :
    (serializerTurns n (startTransfer seg sel s)).latch = .lo := by
  obtain ⟨t, ht, -, ⟨latchLow, -⟩, -⟩ := serializerTurns_startTransfer seg sel s n (Nat.lt_succ_of_le h49)
  exact ht ▸ latchLow h1

/-- Settles O24: the latch's two writes are the ends of the call, low first, and every clock write lies between. -/
theorem latchRisesLast : Obligations.LatchRisesLast := by
  intro seg sel s
  refine ⟨fun n => serializerTurns_startTransfer_latch seg sel s, fun j hj => ⟨fun clock => ?_, fun latch high => ?_,
    writeAt_last seg sel⟩⟩
  · have inside : ¬ (j = 0 ∨ j = 49) := by
      rw [← writeAt_pin_eq_latch_iff seg sel hj, clock]; decide
    omega
  · refine ((writeAt_pin_eq_latch_iff seg sel hj).1 latch).resolve_left ?_
    rintro rfl
    simp at high

end Sys2Proof.Machine
end

section
/-!
PROOF. The two cells of the refresh-flag generator (spec/42_refresh_flag.md R86 to R92): who writes each of them, and
what `startRefresh`, a number of fires and `takeRefresh` leave in them.
-/

namespace Sys2Proof

theorem decode_packWord_startRefresh : decode (packWord 0x06 0 0) = .ok .startRefresh := by
  simp [decode, acceptIf]

end Sys2Proof

namespace Sys2Proof.Machine

open Sys2Proof.Safety

/-! ### Where a write finds its value in the cell already -/

theorem startTimer_eq_self {s : State} (h : s.rfRun = true) : startTimer s = s := by
  rw [startTimer, ← h]

theorem fire_eq_self {s : State} (h : s.rfPend = true) : fire s = s := by
  rw [fire, ← h]

/-! ### The two operations in an open state -/

theorem exec_startRefresh_of_isOpen {s : State} (ho : s.isOpen) :
    exec .startRefresh s = .next (giveBack .noValue (startTimer s)) :=
  execStartRefresh_next_iff.2 ⟨ho, rfl⟩

theorem exec_takeRefresh_of_isOpen {s : State} (ho : s.isOpen) :
    exec .takeRefresh s = .next (giveBack (.flag s.rfPend) (clearPending s)) :=
  execTakeRefresh_next_iff.2 ⟨ho, rfl⟩

/-- Settles O38: the operation's one next state, and the write of `RF_RUN` that changes nothing where it is 1. -/
theorem startRefreshSetsRun : Obligations.StartRefreshSetsRun := by
  intro s ho
  have started := exec_startRefresh_of_isOpen ho
  refine ⟨started, fun running => ?_, decode_packWord_startRefresh⟩
  rw [started, startTimer_eq_self running, giveBack]

/-! ### Any number of fires -/

/-- Fires change `RF_PEND` alone, and leave it 1 exactly where it was 1 or one of them took place (R88, R89). -/
theorem afterFires_eq (n : Nat) (s : State) :
    afterFires n s = { s with rfPend := s.rfPend || (fireEnabled s && decide (0 < n)) } := by
  induction n generalizing s with
  | zero => simp [afterFires]
  | succ n ih =>
    rw [afterFires, ih]
    cases enabled : fireEnabled s with
    | false => simp only [Bool.false_eq_true, if_false, enabled, Bool.false_and]
    | true => simp [fire]

theorem afterFires_of_running {s : State} (ho : s.isOpen) (running : s.rfRun = true) (n : Nat) :
    afterFires n s = { s with rfPend := s.rfPend || decide (0 < n) } := by
  simp [afterFires_eq, running, ho.1]

/-- Settles O41: the fires leave at most one pending refresh, the first `takeRefresh` clears it, and the second finds
the flag clear. -/
theorem firesCoalesce : Obligations.FiresCoalesce := by
  intro n s ho running
  rw [afterFires_of_running ho running]
  exact ⟨fire_eq_self, _, exec_takeRefresh_of_isOpen ho, rfl, exec_takeRefresh_of_isOpen ho⟩

/-! ### Who writes the two cells -/

/-- Of the operations, `startRefresh` writes `RF_RUN` and `takeRefresh` writes `RF_PEND`, and no other writes either. -/
theorem exec_flags_cases {i : Instr} {s t : State} (h : exec i s = .next t) :
    (i = .startRefresh ∧ t.rfRun = true ∧ t.rfPend = s.rfPend) ∨
    (i = .takeRefresh ∧ t.rfRun = s.rfRun ∧ t.rfPend = false) ∨
    (t.rfRun = s.rfRun ∧ t.rfPend = s.rfPend) := by
  obtain ⟨-, ⟨p, rfl, -⟩ | ⟨d, -, -, rfl⟩ | ⟨seg, sel, -, -, rfl⟩ | ⟨rfl, rfl⟩ | ⟨rfl, rfl⟩⟩ := exec_next_cases h
  · exact .inr (.inr ⟨rfl, rfl⟩)
  · exact .inr (.inr ⟨rfl, rfl⟩)
  · exact .inr (.inr ⟨rfl, rfl⟩)
  · exact .inl ⟨rfl, rfl, rfl⟩
  · exact .inr (.inl ⟨rfl, rfl, rfl⟩)

theorem nextOperation_of_host {s : State} {w : OpWord} {ws : List OpWord} {i : Instr} (turn : turnOf s = .host w ws)
    (word : decode w = .ok i) : nextOperation s = some i := by
  simp [nextOperation, turn, word, Except.toOption]

/-- Everything a step can do to the two cells: the timer sets `RF_PEND`, `startRefresh` sets `RF_RUN`, `takeRefresh`
clears `RF_PEND`, and every other step keeps both. -/
theorem step_flags_cases {s t : State} (h : step s = .next t) :
    (turnOf s = .timer ∧ t.rfRun = s.rfRun ∧ t.rfPend = true) ∨
    (nextOperation s = some .startRefresh ∧ t.rfRun = true ∧ t.rfPend = s.rfPend) ∨
    (nextOperation s = some .takeRefresh ∧ t.rfRun = s.rfRun ∧ t.rfPend = false) ∨
    (t.rfRun = s.rfRun ∧ t.rfPend = s.rfPend) := by
  obtain ⟨-, ⟨turn, -, rfl⟩ | ⟨j, -, -, rfl⟩ | ⟨w, ws, turn, -, -, ⟨i, word, performed⟩ | ⟨e, -, rfl⟩⟩ |
    ⟨-, -, -, rfl⟩⟩ := step_next_cases h
  · exact .inl ⟨turn, rfl, rfl⟩
  · exact .inr (.inr (.inr (by simp)))
  · rw [nextOperation_of_host turn word]
    obtain ⟨rfl, run, pend⟩ | ⟨rfl, run, pend⟩ | ⟨run, pend⟩ := exec_flags_cases performed
    · exact .inr (.inl ⟨rfl, run, by simp [pend]⟩)
    · exact .inr (.inr (.inl ⟨rfl, by simp [run], pend⟩))
    · exact .inr (.inr (.inr (by simp [run, pend])))
  · exact .inr (.inr (.inr (by simp)))
  · exact .inr (.inr (.inr (by simp)))

/-- Settles O42: of the steps that can write `RF_PEND`, the timer's sets it and `takeRefresh` clears it. -/
theorem writersOfPending : Obligations.WritersOfPending := by
  intro s t h
  obtain ⟨turn, -, pend⟩ | ⟨-, -, pend⟩ | ⟨operation, -, pend⟩ | ⟨-, pend⟩ := step_flags_cases h
  · exact ⟨fun _ _ => turn, by simp [pend], rfl⟩
  · exact ⟨by simp +contextual [pend], by simp +contextual [pend], rfl⟩
  · exact ⟨by simp [pend], fun _ _ => operation, rfl⟩
  · exact ⟨by simp +contextual [pend], by simp +contextual [pend], rfl⟩

/-- Settles O43: a step keeps `RF_RUN` or is the `startRefresh` that sets it. -/
theorem timerIsNeverStopped : Obligations.TimerIsNeverStopped := by
  intro s t h
  have run : t.rfRun = s.rfRun ∨ (nextOperation s = some .startRefresh ∧ t.rfRun = true) := by
    obtain ⟨-, run, -⟩ | ⟨operation, run, -⟩ | ⟨-, run, -⟩ | ⟨run, -⟩ := step_flags_cases h
    · exact .inl run
    · exact .inr ⟨operation, run⟩
    · exact .inl run
    · exact .inl run
  obtain same | ⟨operation, started⟩ := run
  · exact ⟨fun running => ⟨same.trans running, by simp [same, running]⟩, by simp +contextual [same]⟩
  · exact ⟨fun _ => ⟨started, by simp [started]⟩, fun _ _ => operation⟩

end Sys2Proof.Machine
end

section
/-!
PROOF. The digit patterns of the two modes and the two buttons of the reference host (spec/45_host_reference.md R102 to
R104, R107, R108).
-/

namespace Sys2Proof.Machine

open Sys2Proof.Safety

/-! ### The pattern of a plan with a number 0 to 9 -/

theorem planPattern_plain (T : Digit → Byte) {n : Nat} (h : n ≤ 9) :
    planPattern T (.plain n) = some (T (BitVec.ofNat 4 n)) :=
  digitStageWith_ofNat T h

theorem planPattern_colon (T : Digit → Byte) {n : Nat} (h : n ≤ 9) :
    planPattern T (.colon n) = some (indicatorStage (T (BitVec.ofNat 4 n))) :=
  congrArg (Option.map indicatorStage) (digitStageWith_ofNat T h)

theorem planPattern_decimal (T : Digit → Byte) {n : Nat} (h : n ≤ 9) :
    planPattern T (.decimal n) = some (indicatorStage (T (BitVec.ofNat 4 n))) :=
  congrArg (Option.map indicatorStage) (digitStageWith_ofNat T h)

/-- Settles O52: ElapsedTime is below 6000, so that each of the four numbers is at most 9. -/
theorem timeModePatterns : Obligations.TimeModePatterns := by
  intro T e
  have below := e.isLt
  exact ⟨planPattern_plain T (by omega), planPattern_colon T (by omega), planPattern_plain T (by omega),
    planPattern_plain T (by omega)⟩

/-! ### Centivolts at the two readings R103 fixes -/

theorem centivolts_half {a : Reading} (h : a.val = 1 / 2) : centivolts a = 165 := by
  simp [centivolts, Config.cvRaw, h]

theorem centivolts_one {a : Reading} (h : a.val = 1) : centivolts a = 330 := by
  simp [centivolts, Config.cvRaw, h]

/-- Settles O53: the clamp keeps centivolts at most 999, so that each of the three numbers is at most 9. -/
theorem voltageModePatterns : Obligations.VoltageModePatterns := by
  intro T a
  have clamped := centivolts_le a
  exact ⟨clamped, planPattern_decimal T (by omega), planPattern_plain T (by omega), planPattern_plain T (by omega), rfl,
    centivolts_half, centivolts_one⟩

/-! ### The buttons -/

theorem sampleReset_elapsed_of_falling {h : RefHost} (high : h.prevResetHigh = true) :
    (sampleReset false h).elapsed = 0 := by
  simp [sampleReset, high]

theorem sampleReset_elapsed_of_held {h : RefHost} (low : h.prevResetHigh = false) :
    (sampleReset false h).elapsed = h.elapsed := by
  simp [sampleReset, low]

@[simp] theorem sampleReset_elapsed_of_high (h : RefHost) : (sampleReset true h).elapsed = h.elapsed := by
  simp [sampleReset]

@[simp] theorem sampleReset_prevResetHigh (high : Bool) (h : RefHost) : (sampleReset high h).prevResetHigh = high := rfl

/-- Settles O55: ElapsedTime for each of the two samples, and for a low one by the sample before it. -/
theorem resetButtonActsOnTheEdge : Obligations.ResetButtonActsOnTheEdge := fun h =>
  ⟨sampleReset_elapsed_of_falling, sampleReset_elapsed_of_held, sampleReset_elapsed_of_high h,
    fun high => sampleReset_prevResetHigh high h, rfl⟩

theorem modeOf_eq_time_iff (modeHigh : Bool) : modeOf modeHigh = .time ↔ modeHigh = true := by
  cases modeHigh <;> simp [modeOf]

theorem modeOf_eq_voltage_iff (modeHigh : Bool) : modeOf modeHigh = .voltage ↔ modeHigh = false := by
  cases modeHigh <;> simp [modeOf]

/-- Settles O56: the mode at each of the button's two levels. -/
theorem modeFollowsTheButton : Obligations.ModeFollowsTheButton := fun modeHigh =>
  ⟨modeOf_eq_voltage_iff modeHigh, modeOf_eq_time_iff modeHigh⟩

end Sys2Proof.Machine
end

section
/-!
PROOF. What a set `FAULT` stops (spec/60_exceptions.md R118): every operation and every word is behind the gate, the fire
step is not enabled, and the state is no end of a run.
-/

namespace Sys2Proof.Machine

open Sys2Proof.Safety

/-- Each operation's meaning is behind the gate. -/
theorem exec_of_fault {s : State} {f : Fault} (h : s.fault = some f) (i : Instr) : exec i s = .fault f := by
  cases i <;> exact gated_of_fault h _

theorem issue_of_fault {s : State} {f : Fault} (h : s.fault = some f) (w : OpWord) : issue w s = .fault f :=
  gated_of_fault h _

theorem fireEnabled_of_fault {s : State} {f : Fault} (h : s.fault = some f) : fireEnabled s = false := by
  simp [h]

theorem not_isEnd_of_fault {s : State} {f : Fault} (h : s.fault = some f) : ¬ IsEnd s := by
  simp [IsEnd, h]

/-- Settles O9: the gate answers the fault for the step, every operation and every word, and a run stops at its first
step. -/
theorem faultStopsEveryAgent : Obligations.FaultStopsEveryAgent := fun _ _ h =>
  ⟨step_of_fault h, exec_of_fault h, issue_of_fault h, fireEnabled_of_fault h, runs_succ_of_fault (step_of_fault h),
    not_isEnd_of_fault h, rfl⟩

end Sys2Proof.Machine
end

section
/-!
PROOF. The decoder and the encoder are each other's inverse (spec/30_encoding.md R48 to R59): what a word's three fields
say of the operation it decodes to, the rows of the opcode map by mask and match, the illegal words, and the words the
assembler gives.
-/

namespace Sys2Proof

/-! ### The operations without operands, and `shiftOut` -/

theorem decode_packWord_blank : decode (packWord 0x04 0 0) = .ok .blank := by
  simp [decode, acceptIf]

theorem decode_packWord_shiftOut (s e : Byte) : decode (packWord 0x05 s e) = .ok (.shiftOut s e) := by
  simp [decode]

theorem decode_packWord_takeRefresh : decode (packWord 0x07 0 0) = .ok .takeRefresh := by
  simp [decode, acceptIf]

/-- The decoder reads back the word of every operation. -/
theorem decode_encodeInstr (i : Instr) : decode (encodeInstr i) = .ok i := by
  cases i with
  | encode d => exact decode_packWord_encode d
  | withColon p => exact decode_packWord_withColon p
  | withDecimal p => exact decode_packWord_withDecimal p
  | blank => exact decode_packWord_blank
  | shiftOut s e => exact decode_packWord_shiftOut s e
  | startRefresh => exact decode_packWord_startRefresh
  | takeRefresh => exact decode_packWord_takeRefresh

/-- Settles O2: decoding undoes encoding, operation by operation. -/
theorem everyOperationRoundTrips : Obligations.EveryOperationRoundTrips := decode_encodeInstr

/-! ### What a word decodes to, by its OP field -/

theorem decode_of_op_one {w : OpWord} (h : opField w = 0x01) :
    decode w = acceptIf 0x01 (aField w == 0 && bHigh w == 0) (.encode (bDigit w)) := by simp [decode, h]

theorem decode_of_op_two {w : OpWord} (h : opField w = 0x02) :
    decode w = acceptIf 0x02 (aField w == 0) (.withColon (bField w)) := by simp [decode, h]

theorem decode_of_op_three {w : OpWord} (h : opField w = 0x03) :
    decode w = acceptIf 0x03 (aField w == 0) (.withDecimal (bField w)) := by simp [decode, h]

theorem decode_of_op_four {w : OpWord} (h : opField w = 0x04) :
    decode w = acceptIf 0x04 (aField w == 0 && bField w == 0) .blank := by simp [decode, h]

theorem decode_of_op_five {w : OpWord} (h : opField w = 0x05) :
    decode w = .ok (.shiftOut (aField w) (bField w)) := by simp [decode, h]

theorem decode_of_op_six {w : OpWord} (h : opField w = 0x06) :
    decode w = acceptIf 0x06 (aField w == 0 && bField w == 0) .startRefresh := by simp [decode, h]

theorem decode_of_op_seven {w : OpWord} (h : opField w = 0x07) :
    decode w = acceptIf 0x07 (aField w == 0 && bField w == 0) .takeRefresh := by simp [decode, h]

/-- An OP field names one of the seven rows or none. -/
theorem op_cases (op : Byte) :
    op = 0x01 ∨ op = 0x02 ∨ op = 0x03 ∨ op = 0x04 ∨ op = 0x05 ∨ op = 0x06 ∨ op = 0x07 ∨ (op = 0 ∨ 8 ≤ op) := by
  bv_omega

theorem decode_of_op_without_row {w : OpWord} (h : opField w = 0 ∨ 8 ≤ opField w) :
    decode w = .error (.noSuchOperation (opField w)) := by
  unfold decode
  split
  case h_8 => rfl
  all_goals bv_omega

/-! ### A word that decodes is the word of its operation -/

/-- A byte is its two halves. -/
theorem bHigh_append_bDigit (w : OpWord) : (bHigh w ++ bDigit w : Byte) = bField w :=
  (BitVec.extractLsb'_append_extractLsb'_eq_extractLsb' (x := bField w) rfl).trans BitVec.extractLsb'_eq_self

theorem packWord_of_fields {w : OpWord} {op a b : Byte} (hop : opField w = op) (ha : aField w = a) (hb : bField w = b) :
    packWord op a b = w := by
  rw [← hop, ← ha, ← hb, packWord_fields]

/-- A row all of whose operand fields must be 0 accepts one word. -/
theorem packWord_of_acceptIf_zeros {w : OpWord} {op : Byte} {i j : Instr} (hop : opField w = op)
    (h : acceptIf op (aField w == 0 && bField w == 0) i = .ok j) : i = j ∧ packWord op 0 0 = w := by
  obtain ⟨zero, rfl⟩ := acceptIf_eq_ok.1 h
  simp only [Bool.and_eq_true, beq_iff_eq] at zero
  exact ⟨rfl, packWord_of_fields hop zero.1 zero.2⟩

/-- A row whose A field must be 0 keeps the B field as the operand. -/
theorem packWord_of_acceptIf_zero {w : OpWord} {op : Byte} {i j : Instr} (hop : opField w = op)
    (h : acceptIf op (aField w == 0) i = .ok j) : i = j ∧ packWord op 0 (bField w) = w := by
  obtain ⟨zero, rfl⟩ := acceptIf_eq_ok.1 h
  exact ⟨rfl, packWord_of_fields hop (beq_iff_eq.1 zero) rfl⟩

/-- Every word that decodes is the word of the operation it decodes to: each field the operation does not keep is one
that its row requires to be 0 (R55). -/
theorem encodeInstr_of_decode {w : OpWord} {i : Instr} (h : decode w = .ok i) : encodeInstr i = w := by
  obtain hop | hop | hop | hop | hop | hop | hop | hop := op_cases (opField w)
  · obtain ⟨zero, rfl⟩ := acceptIf_eq_ok.1 (decode_of_op_one hop ▸ h)
    simp only [Bool.and_eq_true, beq_iff_eq] at zero
    exact packWord_of_fields hop zero.1 ((bHigh_append_bDigit w).symm.trans (by rw [zero.2]; rfl))
  · obtain ⟨rfl, word⟩ := packWord_of_acceptIf_zero hop (decode_of_op_two hop ▸ h)
    exact word
  · obtain ⟨rfl, word⟩ := packWord_of_acceptIf_zero hop (decode_of_op_three hop ▸ h)
    exact word
  · obtain ⟨rfl, word⟩ := packWord_of_acceptIf_zeros hop (decode_of_op_four hop ▸ h)
    exact word
  · obtain rfl := Except.ok.inj ((decode_of_op_five hop).symm.trans h)
    exact packWord_of_fields hop rfl rfl
  · obtain ⟨rfl, word⟩ := packWord_of_acceptIf_zeros hop (decode_of_op_six hop ▸ h)
    exact word
  · obtain ⟨rfl, word⟩ := packWord_of_acceptIf_zeros hop (decode_of_op_seven hop ▸ h)
    exact word
  · cases (decode_of_op_without_row hop).symm.trans h

/-- Settles O3: no bit of a legal word is ignored. -/
theorem legalWordsEncodeBack : Obligations.LegalWordsEncodeBack := fun _ _ => encodeInstr_of_decode

/-! ### Rows by mask and match -/

theorem packWord_and (op a b op' a' b' : Byte) :
    packWord op a b &&& packWord op' a' b' = packWord (op &&& op') (a &&& a') (b &&& b') := by
  refine BitVec.eq_of_getLsbD_eq fun k _ => ?_
  simp only [BitVec.getLsbD_and, packWord_getLsbD]
  split
  · rfl
  · split <;> rfl

theorem packWord_inj {op a b op' a' b' : Byte} (h : packWord op a b = packWord op' a' b') :
    op = op' ∧ a = a' ∧ b = b' :=
  ⟨by simpa using congrArg opField h, by simpa using congrArg aField h, by simpa using congrArg bField h⟩

theorem byte_and_ff (p : Byte) : p &&& 0xFF = p := BitVec.and_allOnes

/-- A byte whose high half is masked to 0 is its low half. -/
theorem byte_eq_low_of_and_f0 {b : Byte} (h : b &&& 0xF0 = 0) : (0#4 ++ b.extractLsb' 0 4 : Byte) = b := by
  revert b; decide

/-- Masking a word tests its fields. -/
theorem fields_of_mask {w : OpWord} {op' a' b' op a b : Byte} (h : w &&& packWord op' a' b' = packWord op a b) :
    opField w &&& op' = op ∧ aField w &&& a' = a ∧ bField w &&& b' = b := by
  rw [← packWord_fields w, packWord_and] at h
  exact packWord_inj h

/-- The word of an operation lies in the operation's row (R50). -/
theorem encodeInstr_and_rowMask (i : Instr) : encodeInstr i &&& rowMask i = rowMatch i := by
  cases i with
  | encode d => exact Laws.OpcodeRow.encode d
  | withColon p => exact Laws.OpcodeRow.withColon p
  | withDecimal p => exact Laws.OpcodeRow.withDecimal p
  | blank => exact Laws.OpcodeRow.blank
  | shiftOut s e => exact Laws.OpcodeRow.shiftOut s e
  | startRefresh => exact Laws.OpcodeRow.startRefresh
  | takeRefresh => exact Laws.OpcodeRow.takeRefresh

/-- A word in a row is the word of an operation of that row: the bits its mask leaves out are the operands. -/
theorem exists_encodeInstr_of_mask {w : OpWord} {i : Instr} (h : w &&& rowMask i = rowMatch i) :
    ∃ j, encodeInstr j = w ∧ rowMatch j = rowMatch i := by
  cases i with
  | encode d =>
    obtain ⟨hop, ha, hb⟩ := fields_of_mask (op' := 0xFF) (a' := 0xFF) (b' := 0xF0) (op := 1) (a := 0) (b := 0) h
    rw [byte_and_ff] at hop ha
    exact ⟨.encode (bDigit w), packWord_of_fields hop ha (byte_eq_low_of_and_f0 hb).symm, rfl⟩
  | withColon p =>
    obtain ⟨hop, ha, -⟩ := fields_of_mask (op' := 0xFF) (a' := 0xFF) (b' := 0) (op := 2) (a := 0) (b := 0) h
    rw [byte_and_ff] at hop ha
    exact ⟨.withColon (bField w), packWord_of_fields hop ha rfl, rfl⟩
  | withDecimal p =>
    obtain ⟨hop, ha, -⟩ := fields_of_mask (op' := 0xFF) (a' := 0xFF) (b' := 0) (op := 3) (a := 0) (b := 0) h
    rw [byte_and_ff] at hop ha
    exact ⟨.withDecimal (bField w), packWord_of_fields hop ha rfl, rfl⟩
  | shiftOut s e =>
    obtain ⟨hop, -, -⟩ := fields_of_mask (op' := 0xFF) (a' := 0) (b' := 0) (op := 5) (a := 0) (b := 0) h
    rw [byte_and_ff] at hop
    exact ⟨.shiftOut (aField w) (bField w), packWord_of_fields hop rfl rfl, rfl⟩
  | blank => exact ⟨.blank, h.symm.trans BitVec.and_allOnes, rfl⟩
  | startRefresh => exact ⟨.startRefresh, h.symm.trans BitVec.and_allOnes, rfl⟩
  | takeRefresh => exact ⟨.takeRefresh, h.symm.trans BitVec.and_allOnes, rfl⟩

theorem decode_of_mask {w : OpWord} {i : Instr} (h : w &&& rowMask i = rowMatch i) :
    ∃ j, decode w = .ok j ∧ rowMatch j = rowMatch i := by
  obtain ⟨j, rfl, row⟩ := exists_encodeInstr_of_mask h
  exact ⟨j, decode_encodeInstr j, row⟩

/-- Settles O4: a row's words are those of its operations, and a word decodes to one operation, so to one row's. -/
theorem wordsSelectRowsByMask : Obligations.WordsSelectRowsByMask := by
  refine ⟨fun w i h => ?_, fun w i => decode_of_mask, fun w i j hi hj => ?_⟩
  · rw [← encodeInstr_of_decode h, encodeInstr_and_rowMask]
  · obtain ⟨i', decoded, rowI⟩ := decode_of_mask hi
    obtain ⟨j', decoded', rowJ⟩ := decode_of_mask hj
    obtain rfl : i' = j' := Except.ok.inj (decoded.symm.trans decoded')
    exact rowI.symm.trans rowJ

/-! ### Illegal words -/

/-- A row makes a word illegal exactly where a field that must be 0 is not. -/
theorem isIllegal_of_acceptIf {w : OpWord} {op : Byte} {zero : Bool} {i : Instr} (h : decode w = acceptIf op zero i) :
    isIllegal w = !zero := by
  cases zero <;> simp [isIllegal, h, acceptIf]

theorem isIllegal_of_ok {w : OpWord} {i : Instr} (h : decode w = .ok i) : isIllegal w = false := by
  simp [isIllegal, h]

theorem isIllegal_iff_error {w : OpWord} : isIllegal w = true ↔ ∃ e, decode w = .error e := by
  cases h : decode w <;> simp [isIllegal, h]

/-- Settles O5, by the row of the word's OP field and the fields that must be 0 there. -/
theorem illegalWordsAreThese : Obligations.IllegalWordsAreThese := by
  intro w
  obtain hop | hop | hop | hop | hop | hop | hop | hop := op_cases (opField w)
  · rw [isIllegal_of_acceptIf (decode_of_op_one hop), hop]; simp
  · rw [isIllegal_of_acceptIf (decode_of_op_two hop), hop]; simp
  · rw [isIllegal_of_acceptIf (decode_of_op_three hop), hop]; simp
  · rw [isIllegal_of_acceptIf (decode_of_op_four hop), hop]; simp
  · rw [isIllegal_of_ok (decode_of_op_five hop), hop]; simp
  · rw [isIllegal_of_acceptIf (decode_of_op_six hop), hop]; simp
  · rw [isIllegal_of_acceptIf (decode_of_op_seven hop), hop]; simp
  · exact iff_of_true (isIllegal_iff_error.2 ⟨_, decode_of_op_without_row hop⟩) (hop.imp_right .inl)

/-! ### The assembler -/

theorem assembleOp_of_toInstr {a : AsmOp} {i : Instr} {n : Nat} (h : a.toInstr = some i)
    (hn : (encodeInstr i).toNat = n) : assembleOp a = .ok (BitVec.ofNat 24 n) := by
  simp [assembleOp, h, ← hn]

theorem toInstr_of_not_wf {a : AsmOp} (h : a.wf = false) : a.toInstr = none := by
  simp [AsmOp.toInstr, h]

theorem toNat_byte {p : Nat} (h : p < 256) : (BitVec.ofNat 8 p).toNat = p := by
  simp; omega

/-- Settles O6: the value of each operation's word from its three fields, its operands being in range. -/
theorem assemblerGivesTableWords : Obligations.AssemblerGivesTableWords := by
  refine ⟨fun d hd => ?_, fun p hp => ?_, fun p hp => ?_, by decide, fun s e hs he => ?_, by decide, by decide,
    fun a ha => ?_⟩
  · refine assembleOp_of_toInstr (i := .encode (BitVec.ofNat 4 d)) (by simp [AsmOp.toInstr, AsmOp.wf, hd]) ?_
    rw [encodeInstr, packWord_toNat, BitVec.toNat_append]
    simp; omega
  · refine assembleOp_of_toInstr (i := .withColon (BitVec.ofNat 8 p)) (by simp [AsmOp.toInstr, AsmOp.wf, hp]) ?_
    rw [encodeInstr, packWord_toNat, toNat_byte hp]
    rfl
  · refine assembleOp_of_toInstr (i := .withDecimal (BitVec.ofNat 8 p)) (by simp [AsmOp.toInstr, AsmOp.wf, hp]) ?_
    rw [encodeInstr, packWord_toNat, toNat_byte hp]
    rfl
  · refine assembleOp_of_toInstr (i := .shiftOut (BitVec.ofNat 8 s) (BitVec.ofNat 8 e))
      (by simp [AsmOp.toInstr, AsmOp.wf, hs, he]) ?_
    rw [encodeInstr, packWord_toNat, toNat_byte hs, toNat_byte he]
    rfl
  · simp [assembleOp, toInstr_of_not_wf ha]

/-- Settles O1: each of the words, written out, put through the decoder. -/
theorem tableWordsDecode : Obligations.TableWordsDecode := by
  unfold Obligations.TableWordsDecode
  decide

end Sys2Proof
end

section
/-!
PROOF. The turns of the block one by one (spec/10_state.md R14, R23, spec/60_exceptions.md R115 to R119, R122): what the
step of each turn is, what stops every agent, and where `FAULT` comes from.
-/

namespace Sys2Proof.Machine

open Sys2Proof.Safety

/-! ### The timer's place in the order of turns -/

theorem turnsBeforeFire_of_drawn {s : State} {n : Nat} (h : s.fireIn = some n) : turnsBeforeFire s = n := by
  simp [turnsBeforeFire, h]

theorem turnsBeforeFire_of_undrawn {s : State} (h : s.fireIn = none) :
    turnsBeforeFire s = Config.fireGap s.draws := by
  simp [turnsBeforeFire, h]

theorem timerIsNext_of_stopped {s : State} (h : s.rfRun = false) : timerIsNext s = false := by
  simp [timerIsNext, h]

theorem countTurn_of_stopped {s : State} (h : s.rfRun = false) : countTurn s = s := by
  simp [countTurn, h]

theorem timerIsNext_iff_of_running {s : State} (ho : s.isOpen) (hr : s.rfRun = true) :
    timerIsNext s = true ↔ turnsBeforeFire s = 0 := by
  simp [timerIsNext, hr, ho.1]

theorem countTurn_of_running {s : State} (ho : s.isOpen) (hr : s.rfRun = true) :
    countTurn s = { s with fireIn := some (turnsBeforeFire s - 1) } := by
  simp [countTurn, hr, ho.1]

/-! ### The step of each turn in an open state -/

theorem turnOf_of_timer {s : State} (h : timerIsNext s = true) : turnOf s = .timer := by
  simp [turnOf, h]

theorem step_timer {s : State} (ho : s.isOpen) (h : timerIsNext s = true) : step s = .next (timerTurn s) := by
  rw [step_of_isOpen ho, turnOf_of_timer h, takeTurn]

theorem turnOf_of_busy {s : State} {j : Fin 50} (h : timerIsNext s = false) (hk : s.serK = some j) :
    turnOf s = .serializer j := by
  rw [turnOf_of_not_timer h, hk]

theorem serK_of_turnOf_serializer {s : State} {j : Fin 50} (h : turnOf s = .serializer j) : s.serK = some j := by
  obtain ⟨turn, -⟩ | ⟨-, ⟨k, turn, busy⟩ | ⟨w, ws, turn, -⟩ | ⟨turn, -⟩⟩ := turnOf_cases s <;> cases h.symm.trans turn
  exact busy

theorem step_of_turnOf_serializer {s : State} {j : Fin 50} (ho : s.isOpen) (h : turnOf s = .serializer j) :
    step s = .next (serializerStep j (countTurn s)) := by
  rw [step_of_isOpen ho, h, takeTurn]

theorem turnOf_of_waiting_word {s : State} {w : OpWord} {ws : List OpWord} (h : timerIsNext s = false)
    (hk : s.serK = none) (hp : s.pendingOps = w :: ws) : turnOf s = .host w ws := by
  rw [turnOf_of_not_timer h, hk, hp]

theorem step_of_turnOf_host {s : State} {w : OpWord} {ws : List OpWord} (ho : s.isOpen) (h : turnOf s = .host w ws) :
    step s = issue w { countTurn s with pendingOps := ws } := by
  rw [step_of_isOpen ho, h, takeTurn]

theorem step_wait {s : State} (ho : s.isOpen) (h : timerIsNext s = false) (hk : s.serK = none)
    (hp : s.pendingOps = []) : step s = .next (countTurn s) := by
  rw [step_of_isOpen ho, turnOf_of_not_timer h, hk, hp, takeTurn]

/-- The state from which the waiting word is issued is open where the block is. -/
theorem taken_isOpen {s : State} (ho : s.isOpen) (ws : List OpWord) :
    ({ countTurn s with pendingOps := ws } : State).isOpen :=
  countTurn_isOpen.2 ho

theorem issue_of_ok {s : State} {w : OpWord} {i : Instr} (ho : s.isOpen) (h : decode w = .ok i) :
    issue w s = exec i s := by
  rw [issue, gated_of_isOpen ho, h]

theorem issue_of_error {s : State} {w : OpWord} {e : DecodeError} (ho : s.isOpen) (h : decode w = .error e) :
    issue w s = .next (raiseFault (.illegal w) s) := by
  rw [issue, gated_of_isOpen ho, h]

/-- Settles O7: the host's turn, and the timer's place before it runs and while it runs. -/
theorem stepRunsTheDecodedOperation : Obligations.StepRunsTheDecodedOperation := by
  refine ⟨fun s w ws i ho ht hk hp word => ?_, fun s stopped => ?_, fun s n ho running away => ?_, fun s => ?_⟩
  · rw [step_of_turnOf_host ho (turnOf_of_waiting_word ht hk hp), issue_of_ok (taken_isOpen ho ws) word]
  · exact ⟨timerIsNext_of_stopped stopped, countTurn_of_stopped stopped⟩
  · rw [timerIsNext_iff_of_running ho running, countTurn_of_running ho running, away]
    exact ⟨.rfl, rfl⟩
  · exact ⟨fun _ => turnsBeforeFire_of_drawn, turnsBeforeFire_of_undrawn⟩

/-- Settles O8: the timer's turn, the serializer's, and the wait. -/
theorem everyTurnIsOneAgentsStep : Obligations.EveryTurnIsOneAgentsStep := fun _ ho =>
  ⟨step_timer ho, fun _ ht hk => step_of_turnOf_serializer ho (turnOf_of_busy ht hk), step_wait ho⟩

/-- Settles O49: at reset the timer is stopped and nothing is waiting. -/
theorem resetWaitsForTheHost : Obligations.ResetWaitsForTheHost := by
  have wait := step_wait (s := State.reset) ⟨rfl, rfl⟩ (timerIsNext_of_stopped rfl) rfl rfl
  rwa [countTurn_of_stopped rfl] at wait

/-! ### The refusal mark -/

theorem gated_of_refused {s : State} (hf : s.fault = none) (hr : s.refused = true)
    (o : Host.Outcome State Fault Refusal) : gated s o = .refused .refusedMark := by
  simp [gated, hf, hr]

theorem step_of_refused {s : State} (hf : s.fault = none) (hr : s.refused = true) :
    step s = .refused .refusedMark := gated_of_refused hf hr _

theorem exec_of_refused {s : State} (hf : s.fault = none) (hr : s.refused = true) (i : Instr) :
    exec i s = .refused .refusedMark := by
  cases i <;> exact gated_of_refused hf hr _

/-- Settles O10: every agent's move is behind the gate, which answers the mark. -/
theorem refusedMarkStopsEveryAgent : Obligations.RefusedMarkStopsEveryAgent := fun _ hf hr =>
  ⟨step_of_refused hf hr, exec_of_refused hf hr, runs_succ_of_refused (step_of_refused hf hr),
    fun ⟨_, _, _, unmarked⟩ => by simp [hr] at unmarked⟩

/-! ### Faults -/

/-- Settles O11: issuing the word in the host's turn raises the fault. -/
theorem illegalWordRecordsFault : Obligations.IllegalWordRecordsFault := by
  intro s w ws ho ht hk hp illegal
  obtain ⟨e, word⟩ := isIllegal_iff_error.1 illegal
  rw [step_of_turnOf_host ho (turnOf_of_waiting_word ht hk hp), issue_of_error (taken_isOpen ho ws) word, raiseFault]

/-- An operation leaves `REFUSED`, and `FAULT` too unless it is `encode` of a digit above 9. -/
theorem exec_marks {i : Instr} {s t : State} (h : exec i s = .next t) :
    t.refused = s.refused ∧
      (t.fault = none ∨ ∃ d, i = .encode d ∧ ¬ d ≤ 9 ∧ t.fault = some (.digitRange d)) := by
  obtain ⟨ho, ⟨p, rfl, -⟩ | ⟨d, rfl, above, rfl⟩ | ⟨seg, sel, -, -, rfl⟩ | ⟨-, rfl⟩ | ⟨-, rfl⟩⟩ := exec_next_cases h
  · exact ⟨rfl, .inl ho.1⟩
  · exact ⟨rfl, .inr ⟨d, rfl, above, rfl⟩⟩
  · exact ⟨rfl, .inl ho.1⟩
  · exact ⟨rfl, .inl ho.1⟩
  · exact ⟨rfl, .inl ho.1⟩

/-- Settles O12: of all turns only the host's can set `FAULT`, by the word or by the operation. -/
theorem faultComesOnlyFromTwoCauses : Obligations.FaultComesOnlyFromTwoCauses := by
  intro s t h
  obtain ⟨ho, ⟨-, -, rfl⟩ | ⟨j, -, -, rfl⟩ | ⟨w, ws, turn, -, -, ⟨i, word, performed⟩ | ⟨e, word, rfl⟩⟩ |
    ⟨-, -, -, rfl⟩⟩ := step_next_cases h
  · exact ⟨rfl, .inl ho.1⟩
  · exact ⟨by simp, .inl (by simp [ho.1])⟩
  · obtain ⟨refused, clear | ⟨d, rfl, above, fault⟩⟩ := exec_marks performed
    · exact ⟨refused.trans (countTurn_refused s), .inl clear⟩
    · exact ⟨refused.trans (countTurn_refused s),
        .inr (.inr ⟨w, ws, d, turn, word, BitVec.lt_def.1 (BitVec.not_le.1 above), fault⟩)⟩
  · exact ⟨countTurn_refused s, .inr (.inl ⟨w, ws, turn, isIllegal_iff_error.2 ⟨e, word⟩, rfl⟩)⟩
  · exact ⟨countTurn_refused s, .inl ((countTurn_fault s).trans ho.1)⟩

/-- Settles O13: with a transfer in progress the turn is the timer's or the serializer's. -/
theorem busySerializerHoldsHost : Obligations.BusySerializerHoldsHost := by
  intro s ho busy
  obtain ⟨j, hk⟩ := Option.ne_none_iff_exists'.1 busy
  cases ht : timerIsNext s with
  | true => exact ⟨_, step_timer ho ht, rfl, by rw [nextOperation, turnOf_of_timer ht]⟩
  | false =>
    have turn := turnOf_of_busy ht hk
    exact ⟨_, step_of_turnOf_serializer ho turn, by simp, by rw [nextOperation, turn]⟩

/-- Settles O37: the issue of a second call is behind the gate and finds the serializer busy. -/
theorem shiftOutWhileBusyIsRefused : Obligations.ShiftOutWhileBusyIsRefused := by
  intro seg sel s j ho hk
  rw [exec, execShiftOut, gated_of_isOpen ho, hk]

end Sys2Proof.Machine
end

section
/-!
PROOF. The serializer's transfer (spec/41_serializer.md R72 to R84): the invariant of a transfer in progress, its last
write, the whole call, and its interleavings with fires.
-/

namespace Sys2Proof.Safety

open Sys2Proof.Machine

/-! ### The invariant of a transfer in progress -/

theorem transferAt_zero (s : State) : TransferAt s 0 :=
  ⟨by simp, by simp, by simp, fun k hk => absurd hk (by simp [bitsSent])⟩

/-- What holds before a write is about the pins, the shift stage and the operands alone. -/
theorem TransferAt.of_same {s t : State} {j : Nat} (h : TransferAt s j) (same : SamePinsAndStages s t)
    (seg : t.serSeg = s.serSeg) (sel : t.serSel = s.serSel) : TransferAt t j := by
  unfold TransferAt at *
  rwa [same.latch, same.clock, same.data, same.srShift, seg, sel]

theorem TransferAt.countTurn {s : State} {j : Nat} (h : TransferAt s j) : TransferAt (Machine.countTurn s) j :=
  h.of_same (countTurn_samePinsAndStages s) (countTurn_serSeg s) (countTurn_serSel s)

theorem serializerInv_of_idle {s : State} (h : s.serK = none) : SerializerInv s := fun j hj => by simp [h] at hj

/-- An operation issued to an idle serializer leaves it idle or starts a call. -/
theorem exec_serK_cases {i : Instr} {s t : State} (h : exec i s = .next t) : t.serK = s.serK ∨ t.serK = some 0 := by
  obtain ⟨-, ⟨p, rfl, -⟩ | ⟨d, -, -, rfl⟩ | ⟨seg, sel, -, -, rfl⟩ | ⟨-, rfl⟩ | ⟨-, rfl⟩⟩ := exec_next_cases h
  · exact .inl rfl
  · exact .inl rfl
  · exact .inr rfl
  · exact .inl rfl
  · exact .inl rfl

/-- The serializer's own step keeps the invariant: it moves on to the next write, or ends the transfer. -/
theorem serializerInv_serializerStep {s : State} {j : Fin 50} (h : TransferAt s j) :
    SerializerInv (serializerStep j s) := by
  rcases Nat.lt_succ_iff_lt_or_eq.1 j.isLt with before | last
  · intro k hk
    rw [serializerStep_serK, nextIndex_of_lt before] at hk
    cases hk
    exact serializerStep_transferAt j before s h
  · obtain rfl : j = 49 := Fin.ext last
    exact serializerInv_of_idle (serializerStep_serK 49 s)

/-- Settles O31: the serializer's step moves the transfer on, the timer's leaves it, and the host's finds the serializer
idle, so that only the issue of a call can put a transfer at its first write. -/
theorem stepKeepsSerializerInv : Obligations.StepKeepsSerializerInv := by
  intro s t inv h
  obtain ⟨-, ⟨-, -, rfl⟩ | ⟨j, -, hk, rfl⟩ | ⟨w, ws, -, hk, -, ⟨i, -, performed⟩ | ⟨e, -, rfl⟩⟩ |
    ⟨-, hk, -, rfl⟩⟩ := step_next_cases h
  · exact fun j hj => (inv j hj).of_same (timerTurn_samePinsAndStages s) rfl rfl
  · exact serializerInv_serializerStep (inv j hk).countTurn
  · obtain same | started := exec_serK_cases performed
    · exact serializerInv_of_idle (same.trans ((countTurn_serK s).trans hk))
    · intro j hj
      cases started.symm.trans hj
      exact transferAt_zero t
  · exact serializerInv_of_idle ((countTurn_serK s).trans hk)
  · exact serializerInv_of_idle ((countTurn_serK s).trans hk)

/-- Settles O32: at reset the serializer is idle. -/
theorem resetMeetsSerializerInv : Obligations.ResetMeetsSerializerInv := serializerInv_of_idle rfl

/-! ### One write of a call -/

/-- In the serializer's turn a step is its write. -/
theorem step_eq_serializerStep {s t : State} {j : Fin 50} (turn : turnOf s = .serializer j) (h : step s = .next t) :
    t = serializerStep j (Machine.countTurn s) := by
  have ho := (step_next_cases h).1
  exact Host.Outcome.next.inj (h.symm.trans (step_of_turnOf_serializer ho turn))

/-- Settles O33: only the serializer's turns can change the outputs, and of its writes only the last. -/
theorem outputsChangeOnlyAtCommit : Obligations.OutputsChangeOnlyAtCommit := by
  intro s t h changed
  obtain ⟨j, turn⟩ | same := step_serializer_or_samePinsAndStages h
  · obtain rfl := step_eq_serializerStep turn h
    rw [serializerStep_srOut, countTurn_srShift, countTurn_srOut] at changed ⊢
    split at changed
    case isTrue commit =>
      obtain rfl : j = 49 := Fin.ext commit.1
      exact ⟨turn, if_pos commit⟩
    case isFalse => exact absurd rfl changed
  · exact absurd same.srOut changed

/-- Settles O36: the frame of a write, and the index after it. -/
theorem serializerStepFrame : Obligations.SerializerStepFrame := by
  intro s t j turn h
  obtain rfl := step_eq_serializerStep turn h
  refine ⟨by simp, by simp, by simp, by simp, by simp, by simp, by simp, fun before => ?_, fun last => ?_⟩
  · simp [nextIndex_of_lt before, returnedAfter, before]
  · obtain rfl : j = 49 := Fin.ext last
    simp

/-! ### The last write and the whole call -/

/-- The state at the end of a call with operands `seg` and `sel`, by the state before (R77, R81). -/
def sent (seg sel : Byte) (s : State) : State :=
  { s with
    latch := .hi, clock := .hi, data := .ofBit (sel.getLsbD 0), serSeg := seg, serSel := sel, serK := none,
    srShift := stageOf (seg ++ sel), srOut := stageOf (seg ++ sel), returned := some .noValue }

/-- Before the last write the pins stand where the call leaves them but for the latch, and all sixteen bits are in. -/
theorem TransferAt.at_last {s : State} (h : TransferAt s 49) :
    s.latch = .lo ∧ s.clock = .hi ∧ s.data = .ofBit (s.serSel.getLsbD 0) ∧
      s.srShift = stageOf (s.serSeg ++ s.serSel) := by
  obtain ⟨latch, data, clock, bits⟩ := h
  exact ⟨latch (by decide), clock (by decide), data (by decide), stageOf_of_streamBits bits⟩

/-- The last write commits both bytes and ends the call. -/
theorem serializerStep_last {s : State} (h : TransferAt s 49) :
    serializerStep 49 s = sent s.serSeg s.serSel s := by
  obtain ⟨latch, clock, data, shift⟩ := h.at_last
  rw [serializerStep_eq 49 s _ (writeAt_last _ _)]
  apply State.eq_of_fields <;>
    simp [applyWrite, sent, latch, clock, data, shift, PinLevel.ofBit, returnedAfter]

/-- Settles O34: the invariant places the transfer at its last write, which commits both bytes. -/
theorem lastWriteCommitsBothBytes : Obligations.LastWriteCommitsBothBytes := by
  intro s ho inv turn
  have last := serializerStep_last (inv 49 (serK_of_turnOf_serializer turn)).countTurn
  rw [countTurn_serSeg, countTurn_serSel] at last
  exact ⟨_, (step_of_turnOf_serializer ho turn).trans (congrArg _ last), rfl, rfl, rfl, rfl, rfl, rfl, rfl⟩

/-- The whole call leaves both bytes in the register, from whatever state it is issued in. -/
theorem wholeCall_eq (seg sel : Byte) (s : State) : wholeCall seg sel s = sent seg sel s := by
  obtain ⟨t, ht, hk, transfer, frame⟩ := serializerTurns_startTransfer seg sel s 49 (by decide)
  have lastTurn : wholeCall seg sel s = serializerTurn t := by
    rw [wholeCall, serializerTurns_add 49 1, ht]; rfl
  have operands : t.serSeg = seg ∧ t.serSel = sel := by rw [frame]; exact ⟨rfl, rfl⟩
  rw [lastTurn, serializerTurn_of_some hk]
  refine (serializerStep_last transfer).trans ?_
  rw [operands.1, operands.2, frame]
  rfl

/-- Settles O30: the end of a call is the same for every state that differs in what the call writes. -/
theorem repeatedCallChangesNothing : Obligations.RepeatedCallChangesNothing := fun seg sel s => by
  rw [wholeCall_eq, wholeCall_eq]; rfl

theorem serK_serializerTurns_startTransfer (seg sel : Byte) (s : State) {n : Nat} (h : n < 50) :
    (serializerTurns n (startTransfer seg sel s)).serK = some ⟨n, h⟩ := by
  obtain ⟨t, rfl, hk, -⟩ := serializerTurns_startTransfer seg sel s n h
  exact hk

theorem busy_during_call (seg sel : Byte) (s : State) {n : Nat} (h : n < 50) :
    (serializerTurns n (startTransfer seg sel s)).serK ≠ none := by
  rw [serK_serializerTurns_startTransfer seg sel s h]
  exact Option.some_ne_none _

/-- Issuing a call moves neither the timer nor its countdown. -/
theorem LeavesTurns.startTransfer {n : Nat} {s : State} {f : Option Nat} (h : LeavesTurns n s f) (seg sel : Byte) :
    LeavesTurns n (Machine.startTransfer seg sel s) f := h

/-- Settles O28: the issue, and the run of the 50 serializer steps, which make up the whole call. -/
theorem shiftOutSendsBothBytes : Obligations.ShiftOutSendsBothBytes := by
  intro seg sel s ho idle
  refine ⟨execShiftOut_next_iff.2 ⟨ho, idle, rfl⟩, fun f leaves => ?_⟩
  have run := runs_serializer 50 (startTransfer seg sel s) f ho (leaves.startTransfer seg sel) fun _ =>
    busy_during_call seg sel s
  rw [← wholeCall, wholeCall_eq] at run
  exact run

/-! ### Fires inside a call -/

theorem afterFires_startTransfer (n : Nat) (seg sel : Byte) (s : State) :
    afterFires n (startTransfer seg sel s) = startTransfer seg sel (afterFires n s) := by
  simp [afterFires_eq, startTransfer]

theorem fireEnabled_serializerTurn (s : State) : fireEnabled (serializerTurn s) = fireEnabled s := by
  cases hk : s.serK <;> simp [hk]

theorem fire_serializerTurn (s : State) : fire (serializerTurn s) = serializerTurn (fire s) := by
  cases hk : s.serK with
  | none => rw [serializerTurn_of_none hk]; exact (serializerTurn_of_none (s := fire s) hk).symm
  | some j => rw [serializerTurn_of_some hk, fire_serializerStep]; exact (serializerTurn_of_some (s := fire s) hk).symm

/-- A fire, where enabled, and a serializer's turn go by each other (R84). -/
theorem callTurn_fire_serializerTurn (s : State) :
    callTurn .fire (serializerTurn s) = serializerTurn (callTurn .fire s) := by
  rw [callTurn, callTurn, fireEnabled_serializerTurn, fire_serializerTurn]
  exact (apply_ite serializerTurn _ _ _).symm

theorem afterFires_serializerTurn (n : Nat) (s : State) :
    afterFires n (serializerTurn s) = serializerTurn (afterFires n s) := by
  induction n generalizing s with
  | zero => rfl
  | succ n ih => exact (congrArg (afterFires n) (callTurn_fire_serializerTurn s)).trans (ih _)

/-- Turns in any order are the fires first and the writes after them. -/
theorem callTurns_eq (ts : List CallTurn) (s : State) :
    callTurns ts s = serializerTurns (ts.count .write) (afterFires (ts.count .fire) s) := by
  induction ts generalizing s with
  | nil => rfl
  | cons t ts ih =>
    cases t with
    | fire =>
      rw [callTurns, ih, List.count_cons_of_ne (by decide), List.count_cons_self, afterFires, callTurn]
    | write =>
      rw [callTurns, ih, List.count_cons_self, List.count_cons_of_ne (by decide), serializerTurns, callTurn,
        afterFires_serializerTurn]

/-- Settles O29: the fires go before the issue, and the 50 writes make up the call. -/
theorem interleavedCallIsAtomic : Obligations.InterleavedCallIsAtomic := fun seg sel s ts writes => by
  rw [callTurns_eq, writes, afterFires_startTransfer, wholeCall]

end Sys2Proof.Safety
end

section
/-!
PROOF. The encoder's table and the indicator on a digit (spec/40_encoder.md R62, R66, R69).
-/

namespace Sys2Proof.Machine

/-- Settles O14: the two entries from the source, and bit 7 of every entry. -/
theorem segTableMeetsItsConstraints : Obligations.SegTableMeetsItsConstraints :=
  ⟨rfl, rfl, fun d _ => segTable_getLsbD_seven d⟩

/-- Settles O19: `blank` always answers its constant. -/
theorem blankGivesAllOff : Obligations.BlankGivesAllOff := fun _ ho => alwaysAnswers_blank.exec_eq_returned ho

theorem digitStageWith_eq_some_iff {T : Digit → Byte} {d : Digit} {p : Byte} :
    digitStageWith T d = some p ↔ d ≤ 9 ∧ T d = p := by
  unfold digitStageWith
  split
  case isTrue hd => simp only [Option.some.injEq, hd, true_and]
  case isFalse hd => simp only [reduceCtorEq, hd, false_and]

/-- The indicator stage changes bit 7 of a pattern that has it, and no other bit. -/
theorem indicatorStage_xor_self {p : Byte} (h : p.getLsbD 7 = true) : indicatorStage p ^^^ p = 0x80 := by
  refine BitVec.eq_of_getLsbD_eq fun k hk => ?_
  have mask : (0x80 : Byte).getLsbD k = decide (k = 7) := by
    revert k; decide
  rw [BitVec.getLsbD_xor, mask]
  rcases Nat.lt_succ_iff_lt_or_eq.1 hk with below | rfl
  · simp [indicatorStage_getLsbD_of_lt p below, Nat.ne_of_lt below]
  · rw [indicatorStage_getLsbD_seven, h]; rfl

/-- Settles O18: every digit's entry has bit 7, which is what the indicator stage clears. -/
theorem indicatorOnDigitFlipsBitSeven : Obligations.IndicatorOnDigitFlipsBitSeven := by
  intro T d p ⟨_, _, bitSeven⟩ stage
  obtain ⟨hd, rfl⟩ := digitStageWith_eq_some_iff.1 stage
  exact ⟨indicatorStage_getLsbD_seven _, bitSeven d hd, indicatorStage_xor_self (bitSeven d hd)⟩

end Sys2Proof.Machine
end

section
/-!
PROOF. The writes of a call counted, and their edges (spec/41_serializer.md R75, R78 to R80).
-/

namespace Sys2Proof.Machine

open Sys2Proof.Safety

/-! ### How many writes go to each pin -/

/-- A call's writes to a pin are those of its two latch writes and of its sixteen groups. -/
theorem writeCount_eq (p : Pin) (seg sel : Byte) {n : Nat}
    (group : ∀ i, (bitWrites seg sel i).countP (fun w => w.pin = p) = n) :
    writeCount p seg sel = (if p = .latch then 2 else 0) + 16 * n := by
  rw [writeCount, writes_eq_bitWrites]
  simp only [List.cons_append, List.countP_cons, List.countP_append, List.countP_flatMap, List.countP_nil,
    Function.comp_def, group, List.map_const', List.sum_replicate, List.length_range, smul_eq_mul, decide_eq_true_eq,
    eq_comm (a := Pin.latch)]
  split <;> omega

/-! ### Rising edges -/

/-- A bit's three writes hold one rising edge of the clock and leave the clock high. -/
theorem risingEdges_clock_bitWrites (seg sel : Byte) (i : Nat) (level : Option Bool) (ws : List PinWrite) :
    risingEdges .clock level (bitWrites seg sel i ++ ws) = 1 + risingEdges .clock (some true) ws := by
  simp [bitWrites, risingEdges]

/-- A bit's three writes leave the latch. -/
theorem risingEdges_latch_bitWrites (seg sel : Byte) (i : Nat) (level : Option Bool) (ws : List PinWrite) :
    risingEdges .latch level (bitWrites seg sel i ++ ws) = risingEdges .latch level ws := by
  simp [bitWrites, risingEdges]

theorem risingEdges_clock_flatMap (seg sel : Byte) (is : List Nat) (level : Option Bool) {ws : List PinWrite}
    (quiet : ∀ level, risingEdges .clock level ws = 0) :
    risingEdges .clock level (is.flatMap (bitWrites seg sel) ++ ws) = is.length := by
  induction is generalizing level with
  | nil => exact quiet level
  | cons i is ih =>
    rw [List.flatMap_cons, List.append_assoc, risingEdges_clock_bitWrites, ih, List.length_cons, Nat.add_comm]

theorem risingEdges_latch_flatMap (seg sel : Byte) (is : List Nat) (level : Option Bool) (ws : List PinWrite) :
    risingEdges .latch level (is.flatMap (bitWrites seg sel) ++ ws) = risingEdges .latch level ws := by
  induction is with
  | nil => rfl
  | cons i is ih => rw [List.flatMap_cons, List.append_assoc, risingEdges_latch_bitWrites, ih]

theorem risingEdges_clock_writes (seg sel : Byte) (level : Option Bool) :
    risingEdges .clock level (writes seg sel) = 16 := by
  rw [writes_eq_bitWrites]
  exact (risingEdges_clock_flatMap seg sel (List.range 16) level fun _ => rfl).trans List.length_range

/-- The first write drives the latch low, so that the last one is its one rising edge. -/
theorem risingEdges_latch_writes (seg sel : Byte) (level : Option Bool) :
    risingEdges .latch level (writes seg sel) = 1 := by
  rw [writes_eq_bitWrites, List.cons_append, risingEdges, if_pos rfl, risingEdges_latch_flatMap]
  simp [risingEdges]

/-- Settles O23: one data write and two clock writes for each of the sixteen bits, and the edges among them. -/
theorem writeAndEdgeCounts : Obligations.WriteAndEdgeCounts := fun seg sel =>
  ⟨writeCount_eq .latch seg sel (n := 0) fun _ => rfl, writeCount_eq .data seg sel (n := 1) fun _ => rfl,
    writeCount_eq .clock seg sel (n := 2) fun _ => rfl,
    fun level => ⟨risingEdges_clock_writes seg sel level, risingEdges_latch_writes seg sel level⟩⟩

/-! ### The pins around a clock edge of a call -/

theorem transferAt_serializerTurns (seg sel : Byte) (s : State) {n : Nat} (h : n < 50) :
    TransferAt (serializerTurns n (startTransfer seg sel s)) n ∧
      (serializerTurns n (startTransfer seg sel s)).serSeg = seg ∧
      (serializerTurns n (startTransfer seg sel s)).serSel = sel := by
  obtain ⟨t, rfl, -, transfer, frame⟩ := serializerTurns_startTransfer seg sel s n h
  exact ⟨transfer, by rw [frame], by rw [frame]⟩

/-- Settles O25: what holds before the rise at `W[3+3i]` and after it. -/
theorem dataIsSetBeforeThePulse : Obligations.DataIsSetBeforeThePulse := by
  intro seg sel s i hi
  obtain ⟨⟨-, data, low, -⟩, hseg, hsel⟩ := transferAt_serializerTurns seg sel s (n := 3 + 3 * i) (by omega)
  obtain ⟨⟨-, -, high, -⟩, -⟩ := transferAt_serializerTurns seg sel s (n := 4 + 3 * i) (by omega)
  have bit : (3 + 3 * i - 2) / 3 = i := by omega
  have before : (3 + 3 * i - 1) % 3 = 2 := by omega
  have after : (4 + 3 * i - 1) % 3 ≠ 2 := by omega
  refine ⟨?_, ?_, ?_⟩
  · rw [data (by omega), hseg, hsel, bit, streamBit_eq seg sel hi]
  · rw [low (by omega), before]; rfl
  · rw [high (by omega), decide_eq_true after]; rfl

/-! ### One write and the external register -/

theorem rising_eq_false_of {old : PinLevel} {b : Bool} (d : Bool) (h : b = false ∨ old = .hi) :
    rising old b d = false := by
  obtain rfl | rfl := h
  · exact rising_false old d
  · cases b <;> rfl

theorem driveClock_srShift_of_edge {s : State} (low : s.clock = .lo) :
    (driveClock true s).srShift = shiftIn s.srShift s.data.bit? := by
  rw [driveClock_srShift, low, rising_lo, if_pos rfl]

/-- Settles O26: the shift stage at a rising edge, at no edge, and at one the draw decides. -/
theorem clockEdgeShifts : Obligations.ClockEdgeShifts := by
  intro s b
  refine ⟨by cases b <;> rfl, ?_, fun noEdge => ?_, ?_, rfl⟩
  · rintro rfl low
    rw [driveClock_srShift_of_edge low]
    exact ⟨shiftIn_zero _ _, shiftIn_succ _ _⟩
  · rw [driveClock_srShift, rising_eq_false_of _ noEdge]
    exact if_neg Bool.false_ne_true
  · rintro rfl -
    exact (ite_eq_or_eq _ _ _).symm

/-- Settles O27: the outputs at a rising edge, at no edge, and at one the draw decides. -/
theorem latchEdgeCommits : Obligations.LatchEdgeCommits := by
  intro s b
  refine ⟨?_, fun noEdge => ?_, ?_, rfl, rfl, rfl⟩
  · rintro rfl low
    rw [driveLatch_srOut, low, rising_lo, if_pos rfl]
  · rw [driveLatch_srOut, rising_eq_false_of _ noEdge]
    exact if_neg Bool.false_ne_true
  · rintro rfl -
    exact (ite_eq_or_eq _ _ _).symm

end Sys2Proof.Machine
end

section
/-!
PROOF. The refresh flag over steps and runs (spec/42_refresh_flag.md R88 to R95, spec/70_reset_and_hazards.md R129, R130,
R141).
-/

namespace Sys2Proof.Machine

open Sys2Proof.Safety

/-- Settles O48: the fields of the reset state. -/
theorem resetValues : Obligations.ResetValues :=
  ⟨rfl, rfl, rfl, rfl, rfl, rfl, fun k => ⟨Vector.getElem_replicate k.isLt, Vector.getElem_replicate k.isLt⟩, rfl, rfl⟩

/-- Settles O39: the flag is handed back and cleared, and the second operation finds it clear. -/
theorem takeRefreshReadsAndClears : Obligations.TakeRefreshReadsAndClears := fun _ ho =>
  ⟨_, exec_takeRefresh_of_isOpen ho, rfl, exec_takeRefresh_of_isOpen ho⟩

/-! ### A fire and a `takeRefresh` both enabled -/

/-- The step in which the host performs the waiting `takeRefresh`. -/
theorem step_takeRefresh {s : State} {ws : List OpWord} (ho : s.isOpen) (ht : timerIsNext s = false)
    (hk : s.serK = none) (hp : s.pendingOps = 0x070000 :: ws) :
    step s = .next (giveBack (.flag s.rfPend) (clearPending { countTurn s with pendingOps := ws })) := by
  have word : decode 0x070000 = .ok .takeRefresh := decode_packWord_takeRefresh
  rw [step_of_turnOf_host ho (turnOf_of_waiting_word ht hk hp), issue_of_ok (taken_isOpen ho ws) word,
    exec_takeRefresh_of_isOpen (taken_isOpen ho ws), ← countTurn_rfPend s]

/-- Settles O40: with no turn left the timer is next; with one left the host is, and then the timer. -/
theorem fireAndTakeInEitherOrder : Obligations.FireAndTakeInEitherOrder := by
  intro s ws ho running idle waiting
  refine ⟨fun due => ?_, fun oneLeft => ?_⟩
  · exact ⟨_, step_timer ho ((timerIsNext_iff_of_running ho running).2 due), waiting, exec_takeRefresh_of_isOpen ho⟩
  · have notYet : timerIsNext s = false := by
      rw [Bool.eq_false_iff, Ne, timerIsNext_iff_of_running ho running, oneLeft]; decide
    have taken := step_takeRefresh ho notYet idle waiting
    obtain ⟨stillRunning, noneLeft⟩ := step_countdown taken running oneLeft
    have due := (timerIsNext_iff_of_running (taken_isOpen ho ws) stillRunning).2 (turnsBeforeFire_of_drawn noneLeft)
    exact ⟨_, _, taken, rfl, rfl, step_timer (taken_isOpen ho ws) due, rfl, rfl⟩

/-! ### Before the timer is started -/

theorem timerIsNext_of_turnOf_timer {s : State} (h : turnOf s = .timer) : timerIsNext s = true := by
  obtain ⟨-, due⟩ | ⟨-, ⟨j, turn, -⟩ | ⟨w, ws, turn, -⟩ | ⟨turn, -⟩⟩ := turnOf_cases s
  · exact due
  · cases h.symm.trans turn
  · cases h.symm.trans turn
  · cases h.symm.trans turn

/-- The timer's turn comes only to a timer that runs. -/
theorem rfRun_of_turnOf_timer {s : State} (h : turnOf s = .timer) : s.rfRun = true := by
  have due := timerIsNext_of_turnOf_timer h
  simp only [timerIsNext, fireEnabled_eq, Bool.and_eq_true] at due
  exact due.1.1

/-- Settles O45: of the steps that change the two cells, the fire needs a running timer, `startRefresh` starts it, and
`takeRefresh` clears the flag. -/
theorem stepKeepsQuietBeforeStart : Obligations.StepKeepsQuietBeforeStart := by
  intro s t quiet h stopped
  obtain ⟨turn, run, -⟩ | ⟨-, run, -⟩ | ⟨-, -, pend⟩ | ⟨run, pend⟩ := step_flags_cases h
  · rw [run, rfRun_of_turnOf_timer turn] at stopped
    cases stopped
  · rw [run] at stopped
    cases stopped
  · exact pend
  · exact pend.trans (quiet (run.symm.trans stopped))

/-- Settles O46: with the timer stopped the flag is 0, so that `takeRefresh` clears nothing. -/
theorem noRefreshBeforeStart : Obligations.NoRefreshBeforeStart := by
  refine ⟨fun _ => rfl, fun s ho quiet stopped => ⟨timerIsNext_of_stopped stopped, ?_⟩⟩
  rw [exec_takeRefresh_of_isOpen ho, giveBack, clearPending, quiet stopped, ← quiet stopped]

/-! ### Fires over a run -/

/-- At least one of the first `k` steps from `s` is the timer's. -/
def FiredWithin (k : Nat) (s : State) : Prop := ∃ j u, j < k ∧ runs j s = .next u ∧ turnOf u = .timer

theorem not_firedWithin_zero (s : State) : ¬ FiredWithin 0 s := fun ⟨_, _, h, _⟩ => Nat.not_lt_zero _ h

/-- The timer's turn is the first step or one of those after it. -/
theorem firedWithin_succ_iff {k : Nat} {s u : State} (h : step s = .next u) :
    FiredWithin (k + 1) s ↔ turnOf s = .timer ∨ FiredWithin k u := by
  constructor
  · rintro ⟨j | j, v, hj, run, turn⟩
    · cases run
      exact .inl turn
    · exact .inr ⟨j, v, Nat.lt_of_succ_lt_succ hj, (runs_succ_of_next h j).symm.trans run, turn⟩
  · rintro (turn | ⟨j, v, hj, run, turn⟩)
    · exact ⟨0, s, k.succ_pos, rfl, turn⟩
    · exact ⟨j + 1, v, Nat.succ_lt_succ hj, (runs_succ_of_next h j).trans run, turn⟩

theorem rfPend_of_turnOf_timer {s t : State} (h : step s = .next t) (turn : turnOf s = .timer) : t.rfPend = true := by
  cases h.symm.trans (step_timer (step_next_cases h).1 (timerIsNext_of_turnOf_timer turn))
  rfl

/-- In a step that is no `takeRefresh` a refresh becomes pending by the timer's turn alone. -/
theorem step_rfPend_iff {s t : State} (h : step s = .next t) (noTake : nextOperation s ≠ some .takeRefresh) :
    t.rfPend = true ↔ s.rfPend = true ∨ turnOf s = .timer := by
  obtain ⟨turn, -, pend⟩ | ⟨start, -, pend⟩ | ⟨take, -⟩ | ⟨-, pend⟩ := step_flags_cases h
  · simp [turn, pend]
  · have notTimer : turnOf s ≠ .timer := fun turn => by simp [nextOperation, turn] at start
    simp [notTimer, pend]
  · exact absurd take noTake
  · rw [← pend]
    exact ⟨.inl, fun pendingOrFired => pendingOrFired.elim id (rfPend_of_turnOf_timer h)⟩

theorem runs_rfPend_iff {k : Nat} {s t : State} (h : runs k s = .next t)
    (noTake : ∀ j u, j < k → runs j s = .next u → nextOperation u ≠ some .takeRefresh) :
    t.rfPend = true ↔ s.rfPend = true ∨ FiredWithin k s := by
  induction k generalizing s with
  | zero =>
    cases h
    simp [not_firedWithin_zero]
  | succ k ih =>
    obtain ⟨u, first, rest⟩ := runs_succ_next_iff.1 h
    have noTakeAfter (j : Nat) (v : State) (hj : j < k) (run : runs j u = .next v) :=
      noTake (j + 1) v (Nat.succ_lt_succ hj) ((runs_succ_of_next first j).trans run)
    rw [ih rest noTakeAfter, step_rfPend_iff first (noTake 0 s k.succ_pos rfl), firedWithin_succ_iff first, or_assoc]

/-- Settles O47: the flag at the end of the run is 1 exactly where a step was the timer's, and `takeRefresh` hands it
back. -/
theorem takeRefreshAnswersWhetherFired : Obligations.TakeRefreshAnswersWhetherFired := by
  intro k s t run clear noTake
  have pending := runs_rfPend_iff run noTake
  simp only [clear, Bool.false_eq_true, false_or] at pending
  exact ⟨t.rfPend, pending, exec_takeRefresh_of_isOpen⟩

/-- Settles O50: fires change `RF_PEND` alone, which no part of an end of a run reads. -/
theorem trailingFiresKeepTheEnd : Obligations.TrailingFiresKeepTheEnd := by
  intro n s h
  have fires : afterFires n s = { s with rfPend := s.rfPend || (s.rfRun && decide (0 < n)) } := by
    obtain ⟨-, -, unfaulted, -⟩ := h
    rw [afterFires_eq, fireEnabled_eq, unfaulted]
    simp
  rw [fires]
  exact ⟨h, rfl⟩

end Sys2Proof.Machine
end

section
/-!
PROOF. The reference host keeps its rules (spec/45_host_reference.md R101, R106, R111, R113, spec/70_reset_and_hazards.md
R135): what it issues is allowed, an allowed operation never stops the block, and its digits go round.
-/

namespace Sys2Proof.Machine

open Sys2Proof.Safety

/-! ### What the host issues -/

theorem planTime_number_le {e : Fin 6000} {i : Fin 4} {n : Nat} (h : (planTime e i).number? = some n) : n ≤ 9 := by
  have below := e.isLt
  fin_cases i <;> cases h <;> omega

theorem planVoltage_number_le {cv : Nat} (clamped : cv ≤ 999) {i : Fin 4} {n : Nat}
    (h : (planVoltage cv i).number? = some n) : n ≤ 9 := by
  fin_cases i <;> cases h <;> omega

theorem digitPlan_number_le {mode : DisplayMode} {e : Fin 6000} {a : Reading} {i : Fin 4} {n : Nat}
    (h : (digitPlan mode e a i).number? = some n) : n ≤ 9 := by
  cases mode with
  | time => exact planTime_number_le h
  | voltage => exact planVoltage_number_le (centivolts_le a) h

/-- Settles O54, by the mode. -/
theorem hostDigitsAreInRange : Obligations.HostDigitsAreInRange := fun _ _ _ _ _ => digitPlan_number_le

/-- The first operation of a refresh is allowed where the plan's number is a digit. -/
theorem hostIssues_beginRefresh {plan : DigitPlan} (h : ∀ n, plan.number? = some n → n ≤ 9) :
    HostIssues (beginRefresh plan).1 := by
  cases plan with
  | plain n => exact ofNat_le_nine (h n rfl)
  | colon n => exact ofNat_le_nine (h n rfl)
  | decimal n => exact ofNat_le_nine (h n rfl)
  | blank => trivial

theorem hostIssues_shiftOut_digitEnable (p : Byte) (i : Fin 4) : HostIssues (.shiftOut p (Config.digitEnable i)) :=
  ⟨⟨i, rfl⟩, digitEnable_assertsExactlyOne i⟩

/-- Whatever the host samples and is handed back, the operation it issues is allowed, and a started slow timer stays
started. -/
theorem hostStep_issues (inp : Inputs) (ret : Option ReturnValue) (h : RefHost) :
    (∀ i, (hostStep inp ret h).1 = some i → HostIssues i) ∧
      (h.slowRun = true → (hostStep inp ret h).2.slowRun = true) := by
  cases hp : h.phase with
  | init => simp [hostStep, hp, HostIssues]
  | loop => simp [hostStep, hp, HostIssues, sampleReset]
  | took mode =>
    simp only [hostStep, hp]
    split
    · exact ⟨fun i issued => Option.some.inj issued ▸ hostIssues_beginRefresh fun _ => digitPlan_number_le, id⟩
    · simp
    · simp
  | encoded ind =>
    simp only [hostStep, hp]
    split
    · cases ind with
      | off => exact ⟨fun i issued => Option.some.inj issued ▸ hostIssues_shiftOut_digitEnable _ _, id⟩
      | colon => simp [HostIssues]
      | decimal => simp [HostIssues]
    · simp
  | patterned =>
    simp only [hostStep, hp]
    split
    · exact ⟨fun i issued => Option.some.inj issued ▸ hostIssues_shiftOut_digitEnable _ _, id⟩
    · simp
  | shifting => simp [hostStep, hp, advanceDigit]

/-! ### Allowed operations never stop the block -/

/-- Every word waiting decodes to an operation the host's rules allow. -/
def OnlyAllowedWait (s : State) : Prop := ∀ w ∈ s.pendingOps, ∃ i : Instr, decode w = .ok i ∧ HostIssues i

theorem hostInv_iff {σ : System} : HostInv σ ↔ σ.block.isOpen ∧ OnlyAllowedWait σ.block := Iff.rfl

/-- An allowed operation has a next state in an open block with an idle serializer, and sets no mark there. -/
theorem exec_of_hostIssues {i : Instr} {s : State} (allowed : HostIssues i) (ho : s.isOpen) (idle : s.serK = none) :
    ∃ t, exec i s = .next t ∧ t.isOpen ∧ t.pendingOps = s.pendingOps := by
  cases i with
  | encode d => exact ⟨_, (alwaysAnswers_encode_of_le allowed).exec_eq_returned ho, ho, rfl⟩
  | withColon p => exact ⟨_, (alwaysAnswers_withColon p).exec_eq_returned ho, ho, rfl⟩
  | withDecimal p => exact ⟨_, (alwaysAnswers_withDecimal p).exec_eq_returned ho, ho, rfl⟩
  | blank => exact ⟨_, alwaysAnswers_blank.exec_eq_returned ho, ho, rfl⟩
  | shiftOut seg sel => exact ⟨_, execShiftOut_next_iff.2 ⟨ho, idle, rfl⟩, ho, rfl⟩
  | startRefresh => exact ⟨_, exec_startRefresh_of_isOpen ho, ho, rfl⟩
  | takeRefresh => exact ⟨_, exec_takeRefresh_of_isOpen ho, ho, rfl⟩

/-- With only allowed operations waiting an open block takes a step, which leaves it open and lets no word in. -/
theorem step_of_onlyAllowedWait {s : State} (ho : s.isOpen) (allowed : OnlyAllowedWait s) :
    ∃ t, step s = .next t ∧ t.isOpen ∧ ∀ w ∈ t.pendingOps, w ∈ s.pendingOps := by
  obtain ⟨-, ht⟩ | ⟨ht, ⟨j, turn, -⟩ | ⟨w, ws, turn, idle, waiting⟩ | ⟨-, idle, waiting⟩⟩ := turnOf_cases s
  · exact ⟨_, step_timer ho ht, ho, fun _ => id⟩
  · exact ⟨_, step_of_turnOf_serializer ho turn, by simpa [State.isOpen] using ho, by simp⟩
  · obtain ⟨i, word, rule⟩ := allowed w (by simp [waiting])
    obtain ⟨t, performed, stillOpen, rest⟩ := exec_of_hostIssues rule (taken_isOpen ho ws) ((countTurn_serK s).trans idle)
    refine ⟨t, ?_, stillOpen, fun v hv => ?_⟩
    · rw [step_of_turnOf_host ho turn, issue_of_ok (taken_isOpen ho ws) word, performed]
    · rw [waiting]
      rw [rest] at hv
      exact List.mem_cons_of_mem w hv
  · exact ⟨_, step_wait ho ht idle waiting, countTurn_isOpen.2 ho, by simp⟩

/-! ### The host's invariant -/

theorem hostInv_slowTurn {σ : System} (inv : HostInv σ) : HostInv (slowTurn σ) := by
  obtain ⟨ho, allowed⟩ := inv
  exact ⟨countTurn_isOpen.2 ho, by simpa using allowed⟩

theorem hostInv_hostTurn {σ : System} (inp : Inputs) (ho : σ.block.isOpen) : HostInv (hostTurn inp σ) := by
  refine ⟨taken_isOpen ho _, fun w hw => ?_⟩
  have issued : ∃ i, (hostStep inp σ.block.returned σ.ref).1 = some i ∧ encodeInstr i = w := by
    simpa [hostTurn] using hw
  obtain ⟨i, issues, rfl⟩ := issued
  exact ⟨i, decode_encodeInstr i, (hostStep_issues inp σ.block.returned σ.ref).1 i issues⟩

/-- Every turn of the whole display answers a next state and keeps the host's invariant. -/
theorem systemStep_of_hostInv (inp : Inputs) {σ : System} (inv : HostInv σ) :
    ∃ τ, systemStep inp σ = .next τ ∧ HostInv τ := by
  obtain ⟨ho, allowed⟩ := hostInv_iff.1 inv
  cases turn : sysTurnOf σ with
  | slowTick =>
    have kept := hostInv_slowTurn inv
    exact ⟨_, by rw [systemStep, turn]; exact goOn_of_isOpen kept.1, kept⟩
  | host =>
    have kept := hostInv_hostTurn inp ho
    exact ⟨_, by rw [systemStep, turn]; exact goOn_of_isOpen kept.1, kept⟩
  | block =>
    obtain ⟨t, next, stillOpen, waiting⟩ := step_of_onlyAllowedWait ho allowed
    exact ⟨{ countSlow σ with block := t }, by rw [systemStep, turn]; simp only [next, withBlock], stillOpen,
      fun w hw => allowed w (waiting w hw)⟩

/-- Settles O59: what the host issues is allowed, and what is allowed never stops the block. -/
theorem referenceHostNeverFaults : Obligations.ReferenceHostNeverFaults := fun inp _ => systemStep_of_hostInv inp

/-- Settles O60: at reset the block is open and no word waits. -/
theorem resetMeetsHostInv : Obligations.ResetMeetsHostInv := ⟨⟨rfl, rfl⟩, fun _ hw => nomatch hw⟩

/-! ### The digits in turn -/

theorem hostStep_of_pattern (inp : Inputs) {h : RefHost} (p : Byte) (hp : h.phase = .patterned ∨ h.phase = .encoded .off) :
    hostStep inp (some (.pattern p)) h =
      (some (.shiftOut p (Config.digitEnable h.activeDigit)), { h with phase := .shifting }) := by
  obtain hp | hp := hp <;> simp [hostStep, hp, sendDigit]

theorem hostStep_of_shifting (inp : Inputs) (ret : Option ReturnValue) {h : RefHost} (hp : h.phase = .shifting) :
    hostStep inp ret h = (none, { advanceDigit h with phase := .loop }) := by
  simp [hostStep, hp]

/-- Advances change the active digit alone, and count modulo 4. -/
theorem advanceDigit_iterate (n : Nat) (h : RefHost) :
    advanceDigit^[n] h = { h with activeDigit := ⟨(h.activeDigit.val + n) % 4, Nat.mod_lt _ (by decide)⟩ } := by
  induction n with
  | zero => simp [Nat.mod_eq_of_lt h.activeDigit.isLt]
  | succ n ih => rw [Function.iterate_succ_apply', ih]; simp [advanceDigit, Nat.add_assoc]

/-- Settles O57: the two control points that send, the one that advances, and the advances modulo 4. -/
theorem refreshesGoRoundRobin : Obligations.RefreshesGoRoundRobin := by
  intro h p inp ret
  refine ⟨hostStep_of_pattern inp p, hostStep_of_shifting inp ret, rfl, fun i => ?_, ?_⟩
  · refine ⟨(i.val + 4 - h.activeDigit.val) % 4, Nat.mod_lt _ (by decide), ?_⟩
    rw [advanceDigit_iterate]
    exact Fin.ext (by simp only; omega)
  · rw [advanceDigit_iterate]
    simp [Nat.mod_eq_of_lt h.activeDigit.isLt]

end Sys2Proof.Machine
end

section
/-!
PROOF. The two timers are fair (spec/42_refresh_flag.md R93, spec/45_host_reference.md R97): every turn of the others
counts a timer's gap down, and a timer whose gap has ended is next.
-/

namespace Sys2Proof.Machine

open Sys2Proof.Safety

/-! ### The refresh timer in the block alone -/

/-- With no word waiting the block takes any number of steps. -/
theorem exists_runs_of_none_waiting (k : Nat) {s : State} (ho : s.isOpen) (hp : s.pendingOps = []) :
    ∃ t, runs k s = .next t := by
  induction k generalizing s with
  | zero => exact ⟨s, rfl⟩
  | succ k ih =>
    obtain ⟨u, next, stillOpen, waiting⟩ := step_of_onlyAllowedWait ho (by simp [OnlyAllowedWait, hp])
    have noneLeft : u.pendingOps = [] := List.eq_nil_iff_forall_not_mem.2 fun w hw => by simpa [hp] using waiting w hw
    obtain ⟨t, rest⟩ := ih stillOpen noneLeft
    exact ⟨t, (runs_succ_of_next next k).trans rest⟩

/-- A run that is as long as the gap and one step more ends with the fire. -/
theorem runs_fire {n : Nat} {s t : State} (hr : s.rfRun = true) (gap : turnsBeforeFire s = n)
    (h : runs (n + 1) s = .next t) : t.rfPend = true ∧ t.fireIn = none := by
  induction n generalizing s with
  | zero =>
    obtain ⟨u, next, rest⟩ := runs_succ_next_iff.1 h
    have ho := (step_next_cases next).1
    cases next.symm.trans (step_timer ho ((timerIsNext_iff_of_running ho hr).2 gap))
    cases rest
    exact ⟨rfl, rfl⟩
  | succ n ih =>
    obtain ⟨u, next, rest⟩ := runs_succ_next_iff.1 h
    obtain ⟨running, left⟩ := step_countdown next hr gap
    exact ih running (turnsBeforeFire_of_drawn left) rest

/-! ### The refresh timer in the whole display -/

theorem turnsBeforeFire_countTurn {s : State} (ho : s.isOpen) (hr : s.rfRun = true) :
    turnsBeforeFire (countTurn s) = turnsBeforeFire s - 1 := by
  rw [countTurn_of_running ho hr]; rfl

/-- A turn of the whole display in which the refresh timer leaves a turn counts it, whoever takes it. -/
theorem systemStep_fire_countdown {inp : Inputs} {σ τ : System} {n : Nat} (h : systemStep inp σ = .next τ)
    (ho : σ.block.isOpen) (hr : σ.block.rfRun = true) (gap : turnsBeforeFire σ.block = n + 1) :
    τ.block.rfRun = true ∧ turnsBeforeFire τ.block = n := by
  have counted : turnsBeforeFire (countTurn σ.block) = n := by rw [turnsBeforeFire_countTurn ho hr, gap]; rfl
  have running : (countTurn σ.block).rfRun = true := (countTurn_rfRun _).trans hr
  obtain ⟨-, rfl⟩ | ⟨-, rfl⟩ | ⟨-, t, next, rfl⟩ := systemStep_next_cases h
  · exact ⟨running, counted⟩
  · exact ⟨running, counted⟩
  · obtain ⟨run, left⟩ := step_countdown next hr gap
    exact ⟨run, turnsBeforeFire_of_drawn left⟩

/-- Where the slow tick does not come first, a refresh timer that is next has the turn. -/
theorem sysTurnOf_of_timerIsNext {σ : System} (notSlow : slowIsNext σ = false) (fire : timerIsNext σ.block = true) :
    sysTurnOf σ = .block := by
  simp [sysTurnOf, notSlow, fire]

/-- The refresh timer whose gap has ended has its turn now or after the slow tick, which leaves it the next turn. -/
theorem timer_turn_within_one (inp : Inputs) {σ : System} (ho : σ.block.isOpen) (hr : σ.block.rfRun = true)
    (gap : turnsBeforeFire σ.block = 0) :
    ∃ k τ, k ≤ 1 ∧ systemRun ([inp].take k) σ = .next τ ∧ sysTurnOf τ = .block ∧ turnOf τ.block = .timer := by
  have due := (timerIsNext_iff_of_running ho hr).2 gap
  cases slow : slowIsNext σ with
  | false => exact ⟨0, σ, by decide, rfl, sysTurnOf_of_timerIsNext slow due, turnOf_of_timer due⟩
  | true =>
    have counted : timerIsNext (slowTurn σ).block = true := by
      rw [slowTurn_block, timerIsNext_iff_of_running (countTurn_isOpen.2 ho) ((countTurn_rfRun _).trans hr),
        turnsBeforeFire_countTurn ho hr, gap]
    have tick : systemStep inp σ = .next (slowTurn σ) := by
      rw [systemStep, show sysTurnOf σ = .slowTick by simp [sysTurnOf, slow]]
      exact goOn_of_isOpen (countTurn_isOpen.2 ho)
    have after : slowIsNext (slowTurn σ) = false := by simp [slowIsNext, turnsBeforeTick, slowTurn, due]
    exact ⟨1, slowTurn σ, le_rfl, systemRun_cons_of_next tick, sysTurnOf_of_timerIsNext after counted,
      turnOf_of_timer counted⟩

theorem exists_timer_turn {n : Nat} {σ : System} {inps : List Inputs} (inv : HostInv σ) (hr : σ.block.rfRun = true)
    (gap : turnsBeforeFire σ.block = n) (hl : inps.length = n + 1) :
    ∃ k τ, k ≤ n + 1 ∧ systemRun (inps.take k) σ = .next τ ∧ sysTurnOf τ = .block ∧ turnOf τ.block = .timer := by
  induction n generalizing σ inps with
  | zero =>
    obtain ⟨inp, rfl⟩ := List.length_eq_one_iff.1 hl
    exact timer_turn_within_one inp inv.1 hr gap
  | succ n ih =>
    obtain ⟨inp, inps, rfl⟩ := List.exists_cons_of_length_eq_add_one hl
    obtain ⟨τ, next, inv'⟩ := systemStep_of_hostInv inp inv
    obtain ⟨running, left⟩ := systemStep_fire_countdown next inv.1 hr gap
    obtain ⟨k, υ, bound, run, turn⟩ := ih inv' running left (by simpa using hl)
    exact ⟨k + 1, υ, Nat.succ_le_succ bound, (systemRun_cons_of_next next).trans run, turn⟩

/-- Settles O44: the gap counted down in the block alone, and with the reference host and the slow timer beside it. -/
theorem timerFiresWhenItsGapEnds : Obligations.TimerFiresWhenItsGapEnds :=
  ⟨fun _ _ ho hr gap => ⟨fun _ => runs_fire hr gap, exists_runs_of_none_waiting _ ho⟩,
    fun _ _ _ => exists_timer_turn⟩

/-! ### The slow timer -/

theorem slowTick_elapsed {h : RefHost} (started : h.slowRun = true) :
    (slowTick h).elapsed.val = if h.elapsed.val = 5999 then 0 else h.elapsed.val + 1 := by
  have below := h.elapsed.isLt
  rw [slowTick, if_pos started]
  show (h.elapsed.val + 1) % 6000 = _
  split <;> omega

theorem slowTick_of_stopped {h : RefHost} (stopped : h.slowRun = false) : slowTick h = h := by
  simp [slowTick, stopped]

theorem slowTick_frame (h : RefHost) : slowTick h = { h with elapsed := (slowTick h).elapsed } := by
  unfold slowTick; split <;> rfl

theorem turnsBeforeTick_of_slowTick {σ : System} (h : sysTurnOf σ = .slowTick) : turnsBeforeTick σ = 0 := by
  obtain ⟨-, due⟩ | ⟨-, ⟨turn, -⟩ | ⟨turn, -⟩⟩ := sysTurnOf_cases σ
  · simp only [slowIsNext, Bool.and_eq_true, beq_iff_eq] at due
    exact due.2
  · cases h.symm.trans turn
  · cases h.symm.trans turn

/-- A turn of the whole display in which a started slow timer leaves a turn counts it, whoever takes it. -/
theorem systemStep_tick_countdown {inp : Inputs} {σ τ : System} {n : Nat} (h : systemStep inp σ = .next τ)
    (hr : σ.ref.slowRun = true) (gap : turnsBeforeTick σ = n + 1) :
    τ.ref.slowRun = true ∧ turnsBeforeTick τ = n ∧ τ.slowDraws = σ.slowDraws := by
  have counted : (countSlow σ).slowIn = some n := by rw [countSlow_slowIn hr, gap]; rfl
  obtain ⟨turn, -⟩ | ⟨-, rfl⟩ | ⟨-, t, -, rfl⟩ := systemStep_next_cases h
  · cases gap.symm.trans (turnsBeforeTick_of_slowTick turn)
  · exact ⟨(hostStep_issues inp σ.block.returned σ.ref).2 hr, by simp [turnsBeforeTick, counted], by simp⟩
  · exact ⟨by simpa using hr, by simp [turnsBeforeTick, counted], by simp⟩

theorem exists_slow_tick {n : Nat} {σ : System} {inps : List Inputs} (inv : HostInv σ) (hr : σ.ref.slowRun = true)
    (gap : turnsBeforeTick σ = n) (hl : inps.length = n) :
    ∃ τ, systemRun inps σ = .next τ ∧ τ.slowDraws = σ.slowDraws ∧ sysTurnOf τ = .slowTick ∧
      ∀ inp, ∃ υ, systemStep inp τ = .next υ ∧ υ.ref = slowTick τ.ref ∧ υ.slowDraws = τ.slowDraws + 1 := by
  induction n generalizing σ inps with
  | zero =>
    have turn : sysTurnOf σ = .slowTick := by simp [sysTurnOf, slowIsNext, hr, gap]
    obtain rfl := List.length_eq_zero_iff.1 hl
    refine ⟨σ, rfl, rfl, turn, fun inp => ⟨slowTurn σ, ?_, rfl, rfl⟩⟩
    rw [systemStep, turn]
    exact goOn_of_isOpen (hostInv_slowTurn inv).1
  | succ n ih =>
    obtain ⟨inp, inps, rfl⟩ := List.exists_cons_of_length_eq_add_one hl
    obtain ⟨τ, next, inv'⟩ := systemStep_of_hostInv inp inv
    obtain ⟨started, left, draws⟩ := systemStep_tick_countdown next hr gap
    obtain ⟨υ, run, sameDraws, tick⟩ := ih inv' started left (by simpa using hl)
    exact ⟨υ, (systemRun_cons_of_next next).trans run, sameDraws.trans draws, tick⟩

/-- Settles O51: the tick on the host's cells, and its gap counted down in the whole display. -/
theorem slowTickWraps : Obligations.SlowTickWraps :=
  ⟨fun h => ⟨slowTick_elapsed, slowTick_of_stopped, slowTick_frame h⟩, fun _ _ _ => exists_slow_tick⟩

end Sys2Proof.Machine
end

section
/-!
PROOF. One whole refresh of the reference host while both timers leave it the turns (spec/45_host_reference.md R101,
R106, spec/41_serializer.md R81): the encoder's operations one by one, then the call that sends the digit.
-/

namespace Sys2Proof.Machine

open Sys2Proof.Safety

/-! ### The host's moves and the block's -/

/-- The host at `h` is about to move: the operation it issued last has handed back `r`, `RF_PEND` is `b`, and both timers
leave `n` turns. -/
structure HostAbout (n : Nat) (r : ReturnValue) (h : RefHost) (b : Bool) (σ : System) : Prop where
  isOpen : σ.block.isOpen
  idle : σ.block.serK = none
  noneWaiting : σ.block.pendingOps = []
  returned : σ.block.returned = some r
  rfPend : σ.block.rfPend = b
  ref : σ.ref = h
  leaves : TimersLeave n σ

/-- The block is about to perform `i`, which the host has issued and gone on to `h`; `RF_PEND` is `b`, and both timers
leave `n` turns. -/
structure BlockAbout (n : Nat) (i : Instr) (h : RefHost) (b : Bool) (σ : System) : Prop where
  isOpen : σ.block.isOpen
  idle : σ.block.serK = none
  waiting : σ.block.pendingOps = [encodeInstr i]
  rfPend : σ.block.rfPend = b
  ref : σ.ref = h
  leaves : TimersLeave n σ

/-- The host issues an operation. -/
theorem HostAbout.issue {n : Nat} {r : ReturnValue} {h h' : RefHost} {b : Bool} {σ : System} {i : Instr} {inp : Inputs}
    (about : HostAbout (n + 1) r h b σ) (issues : hostStep inp (some r) h = (some i, h'))
    (slowRun : h'.slowRun = h.slowRun) : ∃ τ, systemStep inp σ = .next τ ∧ BlockAbout n i h' b τ := by
  obtain ⟨ho, idle, noneWaiting, returned, rfPend, rfl, leaves⟩ := about
  have moved : hostStep inp σ.block.returned σ.ref = (some i, h') := by rw [returned, issues]
  obtain ⟨next, leaves⟩ := systemStep_host_quiet (inp := inp) ho idle noneWaiting
    (by simp only [hostTurn, moved, slowRun]) leaves
  exact ⟨_, next, taken_isOpen ho _, (countTurn_serK _).trans idle, by simp [hostTurn, moved],
    (countTurn_rfPend _).trans rfPend, by simp only [hostTurn, moved], leaves⟩

/-- The block performs an operation that always answers one result. -/
theorem BlockAbout.perform {n : Nat} {r : ReturnValue} {h : RefHost} {b : Bool} {σ : System} {i : Instr}
    (about : BlockAbout (n + 1) i h b σ) (inp : Inputs) (answers : AlwaysAnswers i (some r) none) :
    ∃ τ, systemStep inp σ = .next τ ∧ HostAbout n r h b τ := by
  obtain ⟨ho, idle, waiting, rfPend, rfl, leaves⟩ := about
  obtain ⟨next, leaves⟩ := systemStep_issue_quiet (inp := inp) ho idle waiting (decode_encodeInstr i)
    (answers.exec_eq_returned (taken_isOpen ho [])) (countTurn_rfRun _) rfl leaves
  exact ⟨_, next, taken_isOpen ho [], (countTurn_serK _).trans idle, rfl, rfl, (countTurn_rfPend _).trans rfPend,
    countSlow_ref σ, leaves⟩

/-- Two turns: the host issues an operation that always answers one result, and the block performs it. -/
theorem HostAbout.operation {n : Nat} {r r' : ReturnValue} {h h' : RefHost} {b : Bool} {σ : System} {i : Instr}
    {inp : Inputs} (about : HostAbout (n + 2) r h b σ) (inp' : Inputs) (issues : hostStep inp (some r) h = (some i, h'))
    (slowRun : h'.slowRun = h.slowRun) (answers : AlwaysAnswers i (some r') none) :
    ∃ τ, systemRun [inp, inp'] σ = .next τ ∧ HostAbout n r' h' b τ := by
  obtain ⟨υ, issued, about'⟩ := about.issue issues slowRun
  obtain ⟨τ, performed, about''⟩ := about'.perform inp' answers
  exact ⟨τ, (systemRun_cons_of_next issued).trans (systemRun_cons_of_next performed), about''⟩

/-! ### Sending the digit -/

/-- The block performs `shiftOut`: one turn issues the call and fifty write it, and both bytes are on the outputs. -/
theorem BlockAbout.shiftOut {n : Nat} {h : RefHost} {b : Bool} {σ : System} {p e : Byte}
    (about : BlockAbout (n + 51) (.shiftOut p e) h b σ) (inp : Inputs) {writes : List Inputs}
    (fifty : writes.length = 50) :
    ∃ τ, systemRun (inp :: writes) σ = .next τ ∧ HostAbout n .noValue h b τ ∧ τ.block.srOut = stageOf (p ++ e) := by
  obtain ⟨ho, idle, waiting, rfPend, rfl, leaves⟩ := about
  have starts : exec (.shiftOut p e) { countTurn σ.block with pendingOps := [] } = .next _ :=
    execShiftOut_next_iff.2 ⟨taken_isOpen ho [], (countTurn_serK _).trans idle, rfl⟩
  obtain ⟨next, leaves⟩ := systemStep_issue_quiet (n := n + 50) (inp := inp) ho idle waiting
    (decode_encodeInstr (.shiftOut p e)) starts (countTurn_rfRun _) rfl leaves
  obtain ⟨τ, f, run, block, ref, leaves⟩ := systemRun_writes_quiet (k := n) writes
    (σ := { countSlow σ with block := startTransfer p e { countTurn σ.block with pendingOps := [] } })
    (taken_isOpen ho []) (fun m hm => busy_during_call p e _ (fifty ▸ hm)) (by rwa [fifty, Nat.add_comm])
  rw [fifty, ← wholeCall, wholeCall_eq] at block
  refine ⟨τ, (systemRun_cons_of_next next).trans run, ⟨?_, ?_, ?_, ?_, ?_, ref.trans (countSlow_ref σ), leaves⟩, ?_⟩ <;>
    rw [block]
  · exact taken_isOpen ho []
  · rfl
  · rfl
  · rfl
  · exact (countTurn_rfPend _).trans rfPend
  · rfl

/-- What one refresh leaves: `p` and the enable byte of `h`'s active digit on the outputs, `RF_PEND` at `b`, no fault, and
the host at its loop's head with the next digit active (R101). -/
structure Refreshed (p : Byte) (h : RefHost) (b : Bool) (τ : System) : Prop where
  srOut : τ.block.srOut = stageOf (p ++ Config.digitEnable h.activeDigit)
  fault : τ.block.fault = none
  rfPend : τ.block.rfPend = b
  ref : τ.ref = { advanceDigit h with phase := .loop }

/-- With the pattern at hand, the 53 turns left of a refresh send it and go back to the loop's head. -/
theorem HostAbout.send {h : RefHost} {b : Bool} {σ : System} {p : Byte} (about : HostAbout 53 (.pattern p) h b σ)
    (phase : h.phase = .patterned ∨ h.phase = .encoded .off) {inps : List Inputs} (turns : inps.length = 53) :
    ∃ τ, systemRun inps σ = .next τ ∧ Refreshed p h b τ := by
  obtain ⟨inp, inps, rfl⟩ := List.exists_cons_of_length_eq_add_one turns
  obtain ⟨inp', inps, rfl⟩ := List.exists_cons_of_length_eq_add_one (Nat.succ.inj turns)
  have fiftyOne : inps.length = 51 := by simpa using turns
  obtain ⟨last, hlast⟩ := List.length_eq_one_iff.1 (show (inps.drop 50).length = 1 by simp [fiftyOne])
  obtain ⟨υ, issued, about⟩ := about.issue (n := 52) (hostStep_of_pattern inp p phase) rfl
  obtain ⟨υ', called, about, srOut⟩ := about.shiftOut (n := 1) inp' (writes := inps.take 50) (by simp [fiftyOne])
  obtain ⟨ho, idle, noneWaiting, returned, rfPend, ref, leaves⟩ := about
  have back := hostStep_of_shifting last υ'.block.returned (h := υ'.ref) (by rw [ref])
  obtain ⟨ended, -⟩ := systemStep_host_quiet (inp := last) ho idle noneWaiting
    (by simp only [hostTurn, back, advanceDigit]) leaves
  refine ⟨hostTurn last υ', ?_, (countTurn_srOut _).trans srOut, (countTurn_fault _).trans ho.1,
    (countTurn_rfPend _).trans rfPend, ?_⟩
  · rw [systemRun_cons_of_next issued, ← List.take_append_drop 50 inps, hlast, ← List.cons_append,
      systemRun_append [last] called]
    exact systemRun_cons_of_next ended
  · exact (congrArg Prod.snd back).trans (by rw [ref]; rfl)

/-! ### The whole refresh -/

/-- Answered 1, the host issues the first operation of its plan for the active digit. -/
theorem hostStep_of_took (inp : Inputs) {h : RefHost} {mode : DisplayMode} {plan : DigitPlan}
    (phase : h.phase = .took mode) (hplan : plan = digitPlan mode h.elapsed inp.analog h.activeDigit) :
    hostStep inp (some (.flag true)) h = (some (beginRefresh plan).1, { h with phase := (beginRefresh plan).2 }) := by
  simp [hostStep, phase, hplan]

theorem hostStep_of_encoded_colon (inp : Inputs) (p : Byte) {h : RefHost} (phase : h.phase = .encoded .colon) :
    hostStep inp (some (.pattern p)) h = (some (.withColon p), { h with phase := .patterned }) := by
  simp [hostStep, phase]

theorem hostStep_of_encoded_decimal (inp : Inputs) (p : Byte) {h : RefHost} (phase : h.phase = .encoded .decimal) :
    hostStep inp (some (.pattern p)) h = (some (.withDecimal p), { h with phase := .patterned }) := by
  simp [hostStep, phase]

theorem alwaysAnswers_encode_digit {n : Nat} (h : n ≤ 9) :
    AlwaysAnswers (.encode (BitVec.ofNat 4 n)) (some (.pattern (Config.segTable (BitVec.ofNat 4 n)))) none :=
  alwaysAnswers_encode_of_le (ofNat_le_nine h)

/-- A refresh whose plan is one operation: that operation, and the call. -/
theorem HostAbout.refresh_of_one {r : ReturnValue} {h h' : RefHost} {b : Bool} {σ : System} {i : Instr} {p : Byte}
    {inp : Inputs} {inps : List Inputs} (about : HostAbout 55 r h b σ) (turns : inps.length = 54)
    (issues : hostStep inp (some r) h = (some i, h')) (slowRun : h'.slowRun = h.slowRun)
    (answers : AlwaysAnswers i (some (.pattern p)) none) (phase : h'.phase = .patterned ∨ h'.phase = .encoded .off) :
    ∃ τ, systemRun (inp :: inps) σ = .next τ ∧ Refreshed p h' b τ := by
  obtain ⟨inp', rest, rfl⟩ := List.exists_cons_of_length_eq_add_one turns
  obtain ⟨υ, run, about'⟩ := about.operation inp' issues slowRun answers
  obtain ⟨τ, sent, refreshed⟩ := about'.send phase (inps := rest) (by simpa using turns)
  exact ⟨τ, (systemRun_append rest run).trans sent, refreshed⟩

/-- A refresh whose plan sets an indicator: the digit's operation, and then as one whose plan is the indicator's. -/
theorem HostAbout.refresh_of_two {r : ReturnValue} {h h' : RefHost} {b : Bool} {σ : System} {i j : Instr} {p q : Byte}
    {inp : Inputs} {inps : List Inputs} (about : HostAbout 57 r h b σ) (turns : inps.length = 56)
    (issues : hostStep inp (some r) h = (some i, h')) (slowRun : h'.slowRun = h.slowRun)
    (answers : AlwaysAnswers i (some (.pattern p)) none)
    (issues' : ∀ inp, hostStep inp (some (.pattern p)) h' = (some j, { h' with phase := .patterned }))
    (answers' : AlwaysAnswers j (some (.pattern q)) none) :
    ∃ τ, systemRun (inp :: inps) σ = .next τ ∧ Refreshed q h' b τ := by
  obtain ⟨inp', rest, rfl⟩ := List.exists_cons_of_length_eq_add_one turns
  obtain ⟨inp'', rest, rfl⟩ := List.exists_cons_of_length_eq_add_one (Nat.succ.inj turns)
  obtain ⟨υ, run, about'⟩ := about.operation inp' issues slowRun answers
  obtain ⟨τ, sent, srOut, fault, rfPend, ref⟩ :=
    about'.refresh_of_one (inps := rest) (by simpa using turns) (issues' inp'') rfl answers' (.inl rfl)
  exact ⟨τ, (systemRun_append _ run).trans sent, srOut, fault, rfPend, ref⟩

/-- Settles O58: the plan's operations make its pattern, which is then sent. -/
theorem refreshDrivesOneDigit : Obligations.RefreshDrivesOneDigit := by
  intro inp inps mode σ plan ho idle noneWaiting returned phase hplan leaves turns
  have about : HostAbout (refreshTurns plan) (.flag true) σ.ref σ.block.rfPend σ :=
    ⟨ho, idle, noneWaiting, returned, rfl, rfl, leaves⟩
  have issues := hostStep_of_took inp phase hplan
  have digit (n : Nat) (h : plan.number? = some n) : n ≤ 9 := digitPlan_number_le (hplan ▸ h)
  cases plan with
  | plain n =>
    obtain ⟨τ, run, srOut, fault, rfPend, ref⟩ := about.refresh_of_one (Nat.succ.inj turns) issues rfl
      (alwaysAnswers_encode_digit (digit n rfl)) (.inr rfl)
    exact ⟨τ, _, planPattern_plain _ (digit n rfl), run, srOut, fault, rfPend, ref⟩
  | colon n =>
    obtain ⟨τ, run, srOut, fault, rfPend, ref⟩ := about.refresh_of_two (Nat.succ.inj turns) issues rfl
      (alwaysAnswers_encode_digit (digit n rfl)) (fun inp' => hostStep_of_encoded_colon inp' _ rfl)
      (alwaysAnswers_withColon _)
    exact ⟨τ, _, planPattern_colon _ (digit n rfl), run, srOut, fault, rfPend, ref⟩
  | decimal n =>
    obtain ⟨τ, run, srOut, fault, rfPend, ref⟩ := about.refresh_of_two (Nat.succ.inj turns) issues rfl
      (alwaysAnswers_encode_digit (digit n rfl)) (fun inp' => hostStep_of_encoded_decimal inp' _ rfl)
      (alwaysAnswers_withDecimal _)
    exact ⟨τ, _, planPattern_decimal _ (digit n rfl), run, srOut, fault, rfPend, ref⟩
  | blank =>
    obtain ⟨τ, run, srOut, fault, rfPend, ref⟩ := about.refresh_of_one (Nat.succ.inj turns) issues rfl
      alwaysAnswers_blank (.inl rfl)
    exact ⟨τ, _, rfl, run, srOut, fault, rfPend, ref⟩

end Sys2Proof.Machine
end
